-- ==== Sys2Proof/Word.lean ====
section
/-! DEFINITION. The words of the block: bytes and the two register widths of R7 of 00_scope.md. All values are
unsigned (R8 of 00_scope.md). -/

namespace Sys2Proof

/-- A byte: a frame byte on the wire, a byte of buffer memory, the register `RXL`. -/
abbrev Byte := BitVec 8

/-- A 16-bit value: `CHK`, `SEQ`. -/
abbrev Half := BitVec 16

/-- A 32-bit value: `MAXSIZE`, `ACTSIZE`, `INDEX`, the `size` port and the `size` result. -/
abbrev Word := BitVec 32

end Sys2Proof
end

