-- ==== Sys2Proof/Config.lean ====
section
/-! DEFINITION. What is fixed for an instance (R6 of 00_scope.md): the two variants, the address width, the wire
constants, the limits, and the one free value of the model. The wire constants are named because U1 of
93_implementation_defined.md asks for it (UNVERIFIED literals, log 18). -/

namespace Sys2Proof

/-- Which framer an instance is (R6 of 00_scope.md, D29): fixed per instance, never changed by an operation. -/
inductive Variant
  | east
  | icemkii
deriving DecidableEq, Repr

namespace Config

/-- `ADDR_W`, the width of a buffer address. The spec leaves the parameter open with default 32 (R6, D5):
DESIGN CHOICE, log 2. -/
abbrev addrW : Nat := 32

/-- The number of bytes of buffer memory, `2^ADDR_W` (R50 of 20_memory.md). -/
abbrev addrSpace : Nat := 2 ^ addrW

/-- The variant of the instance that `Machine.State.reset` describes. DESIGN CHOICE, log 1; `State.variant` may
hold either, and `Machine.State.resetOf` gives the other instance's reset. -/
def variant : Variant := .icemkii

/-- `START` of the EAST variant. -/
abbrev eastStart : Byte := 0x24
/-- `STOP` of the EAST variant. -/
abbrev eastStop : Byte := 0x42
/-- `SEED` of the EAST variant. -/
abbrev eastSeed : Half := 0x0000
/-- `HDR` of the EAST variant. -/
abbrev eastHdr : Nat := 3
/-- `TRL` of the EAST variant. -/
abbrev eastTrl : Nat := 3
/-- `OVH` of the EAST variant. -/
abbrev eastOvh : Nat := 6
/-- `LIMIT` of the EAST variant. -/
abbrev eastLimit : Nat := 65535

/-- `START` of the ICEMKII variant. -/
abbrev iceStart : Byte := 0x1B
/-- `TOKEN` of the ICEMKII variant. -/
abbrev iceToken : Byte := 0x0E
/-- `SEED` of the ICEMKII variant. -/
abbrev iceSeed : Half := 0xFFFF
/-- `POLY`, the reflected CRC polynomial (R190 of 43_crc16.md). -/
abbrev crcPoly : Half := 0x8408
/-- `HDR` of the ICEMKII variant. -/
abbrev iceHdr : Nat := 8
/-- `TRL` of the ICEMKII variant. -/
abbrev iceTrl : Nat := 2
/-- `OVH` of the ICEMKII variant. -/
abbrev iceOvh : Nat := 10
/-- `LIMIT` of the ICEMKII variant, `2^32 - 11`. -/
abbrev iceLimit : Nat := 0xFFFFFFF5

/-- `HDR`: the number of wire bytes before the first payload byte. -/
def hdr : Variant → Nat
  | .east => eastHdr
  | .icemkii => iceHdr

/-- `OVH`: frame length minus payload length. -/
def ovh : Variant → Nat
  | .east => eastOvh
  | .icemkii => iceOvh

/-- `LIMIT`: the largest size `SetBuffer` accepts. -/
def limit : Variant → Nat
  | .east => eastLimit
  | .icemkii => iceLimit

/-- FREE VALUE (U7 of 93_implementation_defined.md, log 7): what the byte at an address reads as while nothing has
written it. R52 of 20_memory.md: "a model treats it as a free input, not as zero". It depends on the address alone,
because reading one address twice with no write between gives the same byte (R58). -/
opaque unwrittenByte : Nat → Byte

end Config

/-- A buffer address: the `ptr` port and `BUFPTR` (R20 of 10_state.md, R79 of 30_encoding.md). -/
abbrev Addr := BitVec Config.addrW

end Sys2Proof
end

