-- ==== Sys2Proof/Syntax.lean ====
section
/-! DEFINITION. The operations of the block, one constructor per row of spec/opcode_table.json, and the command
ports that carry them (R79, R80 of 30_encoding.md). Field widths are the port widths, so no operand is out of range. -/

namespace Sys2Proof

/-- The direction of a binding, `MODE` and the `mode` port: 0 = input (parse), 1 = output (serialise). -/
inductive Mode
  | input
  | output
deriving DecidableEq, Repr

/-- The values on the command ports while one command is presented (R79 of 30_encoding.md). -/
structure Ports where
  /-- `op[2:0]`. -/
  op : BitVec 3
  /-- `mode[0]`. -/
  mode : BitVec 1
  /-- `ptr[ADDR_W-1:0]`. -/
  ptr : Addr
  /-- `size[31:0]`. -/
  size : Word
  /-- `value[7:0]`. -/
  value : Byte
  /-- `seq[15:0]`. -/
  seq : Half
deriving DecidableEq, Repr

/-- An operation: one constructor per row of the opcode table. -/
inductive Instr
  /-- `NOP` (R108). -/
  | nop
  /-- `EAST.SETBUF mode, ptr, size` (R120). -/
  | eastSetbuf (mode : Mode) (ptr : Addr) (size : Word)
  /-- `EAST.PUTBYTE value` (R125). -/
  | eastPutbyte (value : Byte)
  /-- `EAST.GETBYTE` (R126). -/
  | eastGetbyte
  /-- `EAST.GETSIZE` (R127). -/
  | eastGetsize
  /-- `ICE.SETBUF mode, ptr, size` (R150). -/
  | iceSetbuf (mode : Mode) (ptr : Addr) (size : Word)
  /-- `ICE.PUTBYTE value` (R155). -/
  | icePutbyte (value : Byte)
  /-- `ICE.GETBYTE` (R156). -/
  | iceGetbyte
  /-- `ICE.GETSIZE` (R157). -/
  | iceGetsize
  /-- `ICE.SETSEQ seq` (R151). -/
  | iceSetseq (seq : Half)
  /-- The reserved code 5 of an EAST instance (R109). -/
  | reserved5
  /-- The reserved code 6 (R109). -/
  | reserved6
  /-- The reserved code 7 (R109). -/
  | reserved7
deriving DecidableEq, Repr

end Sys2Proof
end

