-- ==== Sys2Proof/WellFormed.lean ====
section
/-! DEFINITION. Which operations an instance of a variant has (R80 of 30_encoding.md). Operand ranges need no check:
the fields of `Instr` have the port widths. -/

namespace Sys2Proof

/-- `i` is an operation of an instance of variant `v`: the column of R80's operation map in which it stands. -/
def Instr.wf (v : Variant) : Instr → Bool
  | .nop | .reserved6 | .reserved7 => true
  | .eastSetbuf _ _ _ | .eastPutbyte _ | .eastGetbyte | .eastGetsize | .reserved5 => v == .east
  | .iceSetbuf _ _ _ | .icePutbyte _ | .iceGetbyte | .iceGetsize | .iceSetseq _ => v == .icemkii

end Sys2Proof
end

