-- ==== Sys2Proof/Decode.lean ====
section
/-! DEFINITION. From port values to an operation and back (R79 to R81 of 30_encoding.md), and a command as one word.
The spec gives a command separate ports and no word; the word below, ports side by side from bit 0 up in the order of
R79's table, is the model's (DESIGN CHOICE, log 5). It puts `op` at bits 2:0, where spec/opcode_table.json numbers it. -/

namespace Sys2Proof

/-- `mode` port, 0 = input, 1 = output (R79). -/
def Mode.ofBit (b : BitVec 1) : Mode := if b = 0 then .input else .output

/-- The bit that stands for a direction. -/
def Mode.toBit : Mode → BitVec 1
  | .input => 0
  | .output => 1

/-- The operation map of R80: the operation that the port values ask of an instance of variant `v`. Total: every
value of `op` has a row. A port the operation does not use is ignored (R79). -/
def decode (v : Variant) (p : Ports) : Instr :=
  match v, p.op.toNat with
  | _, 0 => .nop
  | .east, 1 => .eastSetbuf (Mode.ofBit p.mode) p.ptr p.size
  | .east, 2 => .eastPutbyte p.value
  | .east, 3 => .eastGetbyte
  | .east, 4 => .eastGetsize
  | .east, 5 => .reserved5
  | .icemkii, 1 => .iceSetbuf (Mode.ofBit p.mode) p.ptr p.size
  | .icemkii, 2 => .icePutbyte p.value
  | .icemkii, 3 => .iceGetbyte
  | .icemkii, 4 => .iceGetsize
  | .icemkii, 5 => .iceSetseq p.seq
  | _, 6 => .reserved6
  | _, _ => .reserved7

/-- The width of a command word: all ports side by side. -/
abbrev commandBits : Nat := 16 + 8 + 32 + Config.addrW + 1 + 3

/-- The port values as one word: `op` at bits 2:0, then `mode`, `ptr`, `size`, `value`, `seq` upwards (log 5). -/
def Ports.toWord (p : Ports) : BitVec commandBits :=
  p.seq ++ p.value ++ p.size ++ p.ptr ++ p.mode ++ p.op

/-- The port values that a command word carries. -/
def Ports.ofWord (w : BitVec commandBits) : Ports where
  op := w.extractLsb' 0 3
  mode := w.extractLsb' 3 1
  ptr := w.extractLsb' 4 Config.addrW
  size := w.extractLsb' (4 + Config.addrW) 32
  value := w.extractLsb' (36 + Config.addrW) 8
  seq := w.extractLsb' (44 + Config.addrW) 16

/-- Why a word is no command. -/
inductive DecodeReject
  /-- A bit is set above the last port, where a command has no bit. -/
  | bitsBeyondPorts
deriving DecidableEq, Repr

/-- Decode any number as a command word, rejecting by name what has bits beyond the ports. -/
def decodeWord (v : Variant) (w : Nat) : Except DecodeReject Instr :=
  if w < 2 ^ commandBits then .ok (decode v (Ports.ofWord (BitVec.ofNat commandBits w)))
  else .error .bitsBeyondPorts

/-- The number that bytes make, the first one least significant. -/
def littleEndian : List Byte → Nat
  | [] => 0
  | b :: bs => b.toNat + 256 * littleEndian bs

/-- Decode any bytes as a command word laid out low byte first; missing high bytes count as zero ports. -/
def decodeBytes (v : Variant) (bs : List Byte) : Except DecodeReject Instr :=
  decodeWord v (littleEndian bs)

/-- The instruction the decoder reads from a table row's word. The table's words carry no variant (R80), so they are
read as an instance of `Config.variant` reads them (log 20). -/
def decodeTableWord (nbits w : Nat) : Option Instr :=
  if w < 2 ^ nbits then (decodeWord Config.variant w).toOption else none

/-- The code on the `op` port that asks for the operation (R80). -/
def Instr.op : Instr → BitVec 3
  | .nop => 0
  | .eastSetbuf _ _ _ | .iceSetbuf _ _ _ => 1
  | .eastPutbyte _ | .icePutbyte _ => 2
  | .eastGetbyte | .iceGetbyte => 3
  | .eastGetsize | .iceGetsize => 4
  | .iceSetseq _ | .reserved5 => 5
  | .reserved6 => 6
  | .reserved7 => 7

/-- The idle ports: everything 0 (D3: "0 is idle so that an undriven port does nothing"). -/
def Ports.idle : Ports := ⟨0, 0, 0, 0, 0, 0⟩

/-- The port values that ask for an operation; ports it does not use carry 0. -/
def encode (i : Instr) : Ports :=
  match i with
  | .eastSetbuf m a n | .iceSetbuf m a n =>
    { Ports.idle with op := i.op, mode := m.toBit, ptr := a, size := n }
  | .eastPutbyte b | .icePutbyte b => { Ports.idle with op := i.op, value := b }
  | .iceSetseq q => { Ports.idle with op := i.op, seq := q }
  | .nop | .eastGetbyte | .iceGetbyte | .eastGetsize | .iceGetsize | .reserved5 | .reserved6 | .reserved7 =>
    { Ports.idle with op := i.op }

/-- The command word of an operation. -/
def encodeWord (i : Instr) : Nat := (encode i).toWord.toNat

/-- The `n` low bytes of a number, the least significant first. -/
def bytesOf : Nat → Nat → List Byte
  | 0, _ => []
  | n + 1, w => BitVec.ofNat 8 w :: bytesOf n (w / 256)

/-- How many bytes hold a command word. -/
abbrev commandBytes : Nat := (commandBits + 7) / 8

/-- The command word of an operation as bytes, low byte first. -/
def encodeBytes (i : Instr) : List Byte := bytesOf commandBytes (encodeWord i)

end Sys2Proof
end

