-- ==== Sys2Proof/Machine/State.lean ====
section
/-! DEFINITION. The state of one FrameCodec instance (R20 of 10_state.md), the buffer memory it reaches (R50 of
20_memory.md), the response and event outputs of its last step (R76 of 30_encoding.md, R210, R211 of
60_exceptions.md), and the moves of its caller still to come (R249 of 70_reset_and_hazards.md). Plain data only. -/

namespace Sys2Proof.Machine

/-- The status of a response (R76): code 3 is never produced, so there is no fourth value. -/
inductive Status
  | inProgress
  | complete
  | error
deriving DecidableEq, Repr

/-- The response of an operation, the triple of R76. -/
structure Response where
  status : Status
  /-- The frame byte produced by `GetByte`; 0x00 for every other operation and for a refusal. -/
  data : Byte
  /-- The result of `GetPacketSize`; 0 for every other operation. -/
  size : Word
deriving DecidableEq, Repr

/-- One move of the world outside the block (R249): the moves land between operations, never inside one (R10). -/
inductive HostMove
  /-- A command is presented on the ports (R79). -/
  | command (p : Ports)
  /-- The `rst` input: hardware reset (R230). -/
  | rst
  /-- The caller, or another master, writes a byte of buffer memory (R52, R60; `MEM[a] = b` of R84). -/
  | memWrite (a : Addr) (b : Byte)
deriving DecidableEq, Repr

/-- Buffer memory: the bytes that have been written, by address. An address that is not listed has not been written
and holds no value of its own (log 7); the canonical form is `Memory.wf`. -/
abbrev Memory := List Host.Cell

/-- One FrameCodec instance with its surroundings. -/
structure State where
  /-- The static parameter `VARIANT` (R6, R33): no register; no step changes it (log 1). -/
  variant : Variant
  /-- `BUFPTR` (R21): byte address of byte 0 of the bound buffer. -/
  bufptr : Addr
  /-- `MAXSIZE` (R22): capacity of the bound buffer in bytes. -/
  maxsize : Word
  /-- `ACTSIZE` (R23): payload length of the current frame. -/
  actsize : Word
  /-- `INDEX` (R24): frame bytes consumed or produced so far; the stage counter. -/
  index : Word
  /-- `CHK` (R26): the running checksum or CRC. -/
  chk : Half
  /-- `SEQ` (R27): the sequence number, ICEMKII only (log 11). -/
  seq : Half
  /-- `RXL` (R28): low byte of the received check value. -/
  rxl : Byte
  /-- `OK` (R29). -/
  ok : Bool
  /-- `COMPLETE` (R30). -/
  complete : Bool
  /-- `MODE` (R31). -/
  mode : Mode
  /-- The buffer memory (R50), outside the block. -/
  mem : Memory
  /-- The response the last step gave; none when it was no operation (log 6). -/
  response : Option Response
  /-- The event output `TXC` of the last step (R210). -/
  txc : Bool
  /-- The event output `RXC` of the last step (R211). -/
  rxc : Bool
  /-- The caller's moves still to come, the next one first (log 3). -/
  inbox : List HostMove
deriving DecidableEq, Repr

/-- Why the model stops. Neither reason is a behaviour of the block: both occur only in states that no run reaches. -/
inductive Fault
  /-- Raised by `PUTBYTE` and `GETBYTE` when no row of the stage table matches `INDEX` (U12 of
  93_implementation_defined.md: "a model error"). Safe: it proves nothing of the block (log 9). -/
  | stageOutsideTable
  /-- Raised by `PUTBYTE` and `GETBYTE` at a payload stage whose address is `2^ADDR_W` or more, where the buffer
  memory has no byte (R50, R57 of 20_memory.md). Safe (log 10). -/
  | addressOutsideMemory
deriving DecidableEq, Repr

/-- Why the model gives no meaning. -/
inductive Refusal
  /-- Raised by `exec` for an instruction that has no meaning yet. Safe; no arm uses it now. -/
  | notModelled (mnemonic : String)
  /-- Raised by an operation of one variant when it is asked of an instance of the other, which has no such operation
  (R80 of 30_encoding.md). No command decodes to it. Safe (log 8). -/
  | otherVariant
deriving DecidableEq, Repr

/-- The state right after hardware reset of an instance of variant `v` at power-on: the hardware reset column of
R32 of 10_state.md (R231 of 70_reset_and_hazards.md); no byte of memory written yet; no response given and no move
waiting. -/
def State.resetOf (v : Variant) : State where
  variant := v
  bufptr := 0
  maxsize := 0
  actsize := 0
  index := 0
  chk := 0
  seq := 0
  rxl := 0
  ok := false
  complete := false
  mode := .input
  mem := []
  response := none
  txc := false
  rxc := false
  inbox := []

/-- The machine right after reset: an instance of `Config.variant` (log 1). -/
def State.reset : State := State.resetOf Config.variant

end Sys2Proof.Machine
end

