-- ==== Sys2Proof/Machine/Operands.lean ====
section
/-! DEFINITION. Operand checks of a command, and the byte fields of registers (R77 of 30_encoding.md). -/

namespace Sys2Proof.Machine

/-- Why an operation is refused: the labels of R202 of 60_exceptions.md. The hardware reports only `Error`, so no
state records one (N26 of 91_not_in_source.md, log 13). -/
inductive RefuseCause
  /-- `X1`. -/
  | reservedCode
  /-- `X2`. -/
  | operandNotAccepted
  /-- `X3`. -/
  | wrongMode
  /-- `X4`. -/
  | frameComplete
deriving DecidableEq, Repr

/-- Why a byte is malformed: the labels of R201 of 60_exceptions.md, recorded nowhere. -/
inductive MalformCause
  /-- `M1`. -/
  | badStart
  /-- `M2`. -/
  | badLength
  /-- `M3`. -/
  | badStopOrToken
  /-- `M4`. -/
  | checkMismatch
deriving DecidableEq, Repr

/-- R208 of 60_exceptions.md: what `SetBuffer` refuses, tested on the operands alone. -/
def setbufCheck (v : Variant) (mode : Mode) (ptr : Addr) (size : Word) : Option RefuseCause :=
  if Config.limit v < size.toNat ∨ Config.addrSpace < ptr.toNat + size.toNat ∨ (mode = .output ∧ size = 0) then
    some .operandNotAccepted
  else none

/-- The mode and completion checks of `PutByte`, in the order of R100 (R102, R104 of 40_dispatch_and_common.md). -/
def putCheck (s : State) : Option RefuseCause :=
  if s.mode ≠ .input then some .wrongMode
  else if s.complete then some .frameComplete
  else none

/-- The mode and completion checks of `GetByte`, in the order of R100 (R102, R104). -/
def getCheck (s : State) : Option RefuseCause :=
  if s.mode ≠ .output then some .wrongMode
  else if s.complete then some .frameComplete
  else none

/-- The length check, strict (R106, C2): `1 <= L and L <= MAXSIZE`. -/
def lengthValid (l maxsize : Word) : Bool := 1 ≤ l.toNat ∧ l.toNat ≤ maxsize.toNat

/-- `x[8j+7:8j]`, byte `j` of a field (R77). -/
def byteOf {w : Nat} (x : BitVec w) (j : Nat) : Byte := x.extractLsb' (8 * j) 8

/-- `x[8j+7:8j] <- v`: the other bits keep their value (R9, R77). -/
def setByte {w : Nat} (x : BitVec w) (j : Nat) (v : Byte) : BitVec w :=
  (x &&& ~~~((0xFF : Byte).setWidth w <<< (8 * j))) ||| (v.setWidth w <<< (8 * j))

/-- The length an EAST header declares when its last byte `v` arrives (R125): `ACTSIZE[7:0] or (zext_32(v) << 8)`. -/
def eastLength (actsize : Word) (v : Byte) : Word :=
  (actsize.extractLsb' 0 8).setWidth 32 ||| (v.setWidth 32 <<< 8)

/-- The length an ICEMKII header declares when its last byte `v` arrives (R155):
`ACTSIZE[23:0] or (zext_32(v) << 24)`. -/
def iceLength (actsize : Word) (v : Byte) : Word :=
  (actsize.extractLsb' 0 24).setWidth 32 ||| (v.setWidth 32 <<< 24)

/-- The received check value (R28): `(zext_16(v) << 8) or zext_16(RXL)`. -/
def receivedCheck (v rxl : Byte) : Half := (v.setWidth 16 <<< 8) ||| rxl.setWidth 16

end Sys2Proof.Machine
end

