-- ==== Sys2Proof/Machine/Flags.lean ====
section
/-! DEFINITION. The running check values (R74 of 30_encoding.md, R190 to R193 of 43_crc16.md) and the status outputs
(R32 of 10_state.md). -/

namespace Sys2Proof.Machine

/-- EAST accumulation (R74): `CHK xor zext_16(b)`. -/
def xorUpd (c : Half) (b : Byte) : Half := c ^^^ b.setWidth 16

/-- One step of the loop of R192: shift right, and XOR the polynomial in when a 1 was shifted out. -/
def crcBit (x : Half) : Half := if x.getLsbD 0 then (x >>> 1) ^^^ Config.crcPoly else x >>> 1

/-- The loop of R192: eight bit steps. -/
def crcByte (x : Half) : Half :=
  crcBit (crcBit (crcBit (crcBit (crcBit (crcBit (crcBit (crcBit x)))))))

/-- The table `T` (R193): entry `n` is the loop of R192 started from `zext_16(n)`. DEDUCED, log 17: the listed values
are this function's, and the tests compare all 256. -/
def crcTable (n : Byte) : Half := crcByte (n.setWidth 16)

/-- ICEMKII accumulation (R191): `(c >> 8) xor T[(c xor zext_16(b))[7:0]]`. -/
def crcUpd (c : Half) (b : Byte) : Half :=
  (c >>> 8) ^^^ crcTable ((c ^^^ b.setWidth 16).extractLsb' 0 8)

/-- The `FLAGS` status output (R32): bit 0 `OK`, bit 1 `COMPLETE`, bit 2 `MODE`, bits 7:3 read 0. -/
def State.flags (s : State) : Byte :=
  (0 : BitVec 5) ++ s.mode.toBit ++ BitVec.ofBool s.complete ++ BitVec.ofBool s.ok

/-- The read-only status outputs (R32). -/
structure StatusOutputs where
  bufptr : Addr
  maxsize : Word
  actsize : Word
  index : Word
  chk : Half
  /-- Absent on an EAST instance, which has no `SEQ` (R20). -/
  seq : Option Half
  rxl : Byte
  flags : Byte
deriving DecidableEq, Repr

/-- What the status outputs show: each register under its own name, `SEQ` on ICEMKII only (R20, R32). -/
def State.outputs (s : State) : StatusOutputs where
  bufptr := s.bufptr
  maxsize := s.maxsize
  actsize := s.actsize
  index := s.index
  chk := s.chk
  seq := match s.variant with
    | .east => none
    | .icemkii => some s.seq
  rxl := s.rxl
  flags := s.flags

/-- The code of a status on the `status` port (R76): 0, 1, 2. -/
def Status.code : Status → BitVec 2
  | .inProgress => 0
  | .complete => 1
  | .error => 2

end Sys2Proof.Machine
end

