-- ==== Sys2Proof/Machine/Stage.lean ====
section
/-! DEFINITION. The stage function of R101 of 40_dispatch_and_common.md: what the next byte of a frame means, a pure
function of `INDEX` and `ACTSIZE`. -/

namespace Sys2Proof.Machine

/-- The stages of an EAST frame (R71, R101). -/
inductive EastStage
  | start
  | len0
  | len1
  /-- Payload byte `k`. -/
  | data (k : Nat)
  | stop
  | chk0
  | chk1
deriving DecidableEq, Repr

/-- The stages of an ICEMKII frame (R73, R101). -/
inductive IceStage
  | start
  | seq0
  | seq1
  | len0
  | len1
  | len2
  | len3
  | token
  /-- Payload byte `k`. -/
  | data (k : Nat)
  | chk0
  | chk1
deriving DecidableEq, Repr

/-- The EAST header stages, `i < HDR` (R101). -/
def eastHeader : Nat → Option EastStage
  | 0 => some .start
  | 1 => some .len0
  | 2 => some .len1
  | _ => none

/-- The EAST trailer stages, `j = i - (N + HDR)` (R101). -/
def eastTrailer : Nat → Option EastStage
  | 0 => some .stop
  | 1 => some .chk0
  | 2 => some .chk1
  | _ => none

/-- R101, EAST column, `i = INDEX` and `n = ACTSIZE`: header, then `n` payload bytes, then trailer; none where no row
of the table matches (U12). -/
def eastStage (i n : Nat) : Option EastStage :=
  if i < Config.eastHdr then eastHeader i
  else if i < n + Config.eastHdr then some (.data (i - Config.eastHdr))
  else eastTrailer (i - (n + Config.eastHdr))

/-- The ICEMKII header stages, `i < HDR` (R101). -/
def iceHeader : Nat → Option IceStage
  | 0 => some .start
  | 1 => some .seq0
  | 2 => some .seq1
  | 3 => some .len0
  | 4 => some .len1
  | 5 => some .len2
  | 6 => some .len3
  | 7 => some .token
  | _ => none

/-- The ICEMKII trailer stages, `j = i - (N + HDR)` (R101). -/
def iceTrailer : Nat → Option IceStage
  | 0 => some .chk0
  | 1 => some .chk1
  | _ => none

/-- R101, ICEMKII column, `i = INDEX` and `n = ACTSIZE`: header, then `n` payload bytes, then trailer; none where no
row of the table matches (U12). -/
def iceStage (i n : Nat) : Option IceStage :=
  if i < Config.iceHdr then iceHeader i
  else if i < n + Config.iceHdr then some (.data (i - Config.iceHdr))
  else iceTrailer (i - (n + Config.iceHdr))

end Sys2Proof.Machine
end

