-- ==== Sys2Proof/Machine/Ops.lean ====
section
/-! DEFINITION. The operations that the meanings share: buffer memory (R50 to R52 of 20_memory.md), responses and
events (R76 of 30_encoding.md, R210, R211 of 60_exceptions.md), the two outcomes the block has in place of exceptions
(`malformed`, R203, and `refuse`, R207), the transfers of `INDEX` (R103 of 40_dispatch_and_common.md), binding (R120,
R150), the size query (R127, R157), and what the outside does (R230, R60). -/

namespace Sys2Proof.Machine

/-- What a step or a meaning answers. -/
abbrev Result := Host.Outcome State Fault Refusal

/-- The canonical form of a memory: addresses strictly rising, all inside the address space. An address that is not
listed has no value (log 7), so no entry can equal what an unlisted address reads as. -/
def Memory.wf : Memory → Bool
  | [] => true
  | [c] => c.1 < Config.addrSpace
  | c :: d :: m => c.1 < d.1 && Memory.wf (d :: m)

/-- The byte most recently written at `a`; none if nothing has written it (R52). -/
def Memory.read : Memory → Nat → Option Byte
  | [], _ => none
  | c :: m, a => if c.1 = a then some c.2 else Memory.read m a

/-- Make `b` the byte at `a` (R52), keeping the canonical form. -/
def Memory.write : Memory → Nat → Byte → Memory
  | [], a, b => [(a, b)]
  | c :: m, a, b =>
    if a < c.1 then (a, b) :: c :: m
    else if a = c.1 then (a, b) :: m
    else c :: Memory.write m a b

/-- `MemRead(a, 1)`: the byte last written at `a`; while nothing has written it, the free value of the address
(R52, U7, log 7). -/
def State.byteAt (s : State) (a : Nat) : Byte := (s.mem.read a).getD (Config.unwrittenByte a)

/-- `MemWrite(a, 1, b)` (R52). -/
def State.storeByte (s : State) (a : Nat) (b : Byte) : State := { s with mem := s.mem.write a b }

/-- The address of payload byte `k` of the bound buffer, `BUFPTR + k` on naturals (R54, R105). -/
def payloadAddr (s : State) (k : Nat) : Nat := s.bufptr.toNat + k

/-- Make the access of a `DATA(k)` stage at its address. Outside the address space there is no byte (R50); R57 shows
that the block never gets there (log 10). -/
def atPayload (s : State) (k : Nat) (access : Nat → Result) : Result :=
  if payloadAddr s k < Config.addrSpace then access (payloadAddr s k) else .fault .addressOutsideMemory

/-- Give a response and drive the two event outputs (R76, R210, R211). -/
def answer (r : Response) (txc rxc : Bool) (s : State) : State :=
  { s with response := some r, txc := txc, rxc := rxc }

/-- `respond(status)`: no data, no size, no event. -/
def respond (st : Status) (s : State) : State := answer ⟨st, 0, 0⟩ false false s

/-- `respond(InProgress, data = b)`. -/
def respondByte (b : Byte) (s : State) : State := answer ⟨.inProgress, b, 0⟩ false false s

/-- `respond(InProgress, size = n)`. -/
def respondSize (n : Word) (s : State) : State := answer ⟨.inProgress, 0, n⟩ false false s

/-- `refuse()` (R207): status `Error`, nothing else changes. The cause is a label, reported nowhere (R202). -/
def refuse (_why : RefuseCause) (s : State) : State := respond .error s

/-- `malformed()` (R203): `INDEX <- 0`, `ACTSIZE <- 0`, `OK <- 0`, answered `InProgress`. The block's counterpart of
taking an exception; nothing is saved and there is no return (R205). The cause is a label, reported nowhere (R201). -/
def malformed (_why : MalformCause) (s : State) : State :=
  respond .inProgress { s with index := 0, actsize := 0, ok := false }

/-- The *advance* of R103: `INDEX <- INDEX + 1`. -/
def advance (s : State) : State := { s with index := s.index + 1 }

/-- The byte fitted its stage and the parser goes on: advance, answer `InProgress`. -/
def accept (s : State) : State := respond .inProgress (advance s)

/-- The serialiser produced `b` and goes on: advance, answer `InProgress` with the byte. -/
def emit (b : Byte) (s : State) : State := respondByte b (advance s)

/-- The *complete* of R103: `INDEX <- 0`, `COMPLETE <- 1`. -/
def completeFrame (s : State) : State := { s with index := 0, complete := true }

/-- The last byte of a valid frame was received: complete, answer `Complete`, event `RXC` (R211). -/
def acceptLast (s : State) : State := answer ⟨.complete, 0, 0⟩ false true (completeFrame s)

/-- The last byte of the frame is produced: complete, answer `Complete` with the byte, event `TXC` (R210). -/
def emitLast (b : Byte) (s : State) : State := answer ⟨.complete, b, 0⟩ true false (completeFrame s)

/-- An accepted `SetBuffer` (R120, R150): bind the buffer and clear the cursor; `SEQ` is not written. -/
def bindBuffer (mode : Mode) (ptr : Addr) (size : Word) (s : State) : State :=
  respond .inProgress
    { s with
      bufptr := ptr, mode := mode, maxsize := size
      actsize := if mode = .output then size else 0
      index := 0, chk := 0, rxl := 0, ok := false, complete := false }

/-- `SetBuffer` (R120, R150): refused by R208, otherwise bound. -/
def setBuffer (v : Variant) (mode : Mode) (ptr : Addr) (size : Word) (s : State) : State :=
  match setbufCheck v mode ptr size with
  | some why => refuse why s
  | none => bindBuffer mode ptr size s

/-- The size that `GetPacketSize` reports (R127, R157). Output mode: `ACTSIZE + OVH - INDEX`, 0 once complete. Input
mode: `ACTSIZE`; during a frame this is the pinned value of D14 (U5, log 16). -/
def packetSize (v : Variant) (s : State) : Word :=
  match s.mode with
  | .output => if s.complete then 0 else BitVec.ofNat 32 (s.actsize.toNat + Config.ovh v - s.index.toNat)
  | .input => s.actsize

/-- An operation of variant `v` asked of the instance `s`: an instance of the other variant has no such operation
(R80, log 8). -/
def onVariant (v : Variant) (s : State) (r : Result) : Result :=
  if s.variant = v then r else .refused .otherVariant

/-- No operation: no response, no event (log 6). -/
def silent (s : State) : State := { s with response := none, txc := false, rxc := false }

/-- The `rst` input (R230, R32, R36): every register to its hardware reset value, memory untouched, no response, no
event; what the caller does next is not the block's. -/
def hardwareReset (s : State) : State :=
  { State.resetOf s.variant with mem := s.mem, inbox := s.inbox }

/-- The caller or another master writes a byte of buffer memory (R52, R60). -/
def callerWrite (a : Addr) (b : Byte) (s : State) : State := silent (s.storeByte a.toNat b)

/-- Put a command at the head of the caller's moves. -/
def presentCommand (p : Ports) (s : State) : State := { s with inbox := .command p :: s.inbox }

end Sys2Proof.Machine
end

