-- ==== Sys2Proof/Machine/Common.lean ====
section
/-! DEFINITION. The operations that are the same on both variants: `NOP` (R108) and the reserved codes (R109 of
40_dispatch_and_common.md). -/

namespace Sys2Proof.Machine

/-- `NOP` (R108): `respond(InProgress)`, never refused. -/
def execNop (s : State) : Result := .next (respond .inProgress s)

/-- The reserved code 5 of an EAST instance (R109): `refuse()`. -/
def execReserved5 (s : State) : Result := onVariant .east s (.next (refuse .reservedCode s))

/-- The reserved code 6 (R109): `refuse()`. -/
def execReserved6 (s : State) : Result := .next (refuse .reservedCode s)

/-- The reserved code 7 (R109): `refuse()`. -/
def execReserved7 (s : State) : Result := .next (refuse .reservedCode s)

end Sys2Proof.Machine
end

