-- ==== Sys2Proof/Machine/East.lean ====
section
/-! DEFINITION. The operations of an EAST instance (41_east_framer.md): `EAST.SETBUF` (R120), `EAST.PUTBYTE` (R125),
`EAST.GETBYTE` (R126), `EAST.GETSIZE` (R127). -/

namespace Sys2Proof.Machine

/-- What `EAST.PUTBYTE` does with the byte `v` at each stage (R125). -/
def eastPutStage (st : EastStage) (v : Byte) (s : State) : Result :=
  match st with
  | .start =>
    if v = Config.eastStart then .next (accept { s with ok := true, chk := Config.eastSeed, actsize := 0 })
    else .next (malformed .badStart s)
  | .len0 => .next (accept { s with actsize := v.setWidth 32 })
  | .len1 =>
    if lengthValid (eastLength s.actsize v) s.maxsize then
      .next (accept { s with actsize := eastLength s.actsize v })
    else .next (malformed .badLength s)
  | .data k => atPayload s k fun a => .next (accept { s.storeByte a v with chk := xorUpd s.chk v })
  | .stop =>
    if v = Config.eastStop then .next (accept s)
    else .next (malformed .badStopOrToken s)
  | .chk0 => .next (accept { s with rxl := v })
  | .chk1 =>
    if receivedCheck v s.rxl = s.chk then .next (acceptLast s)
    else .next (malformed .checkMismatch s)

/-- What `EAST.GETBYTE` does at each stage (R126). -/
def eastGetStage (st : EastStage) (s : State) : Result :=
  match st with
  | .start => .next (emit Config.eastStart { s with chk := Config.eastSeed })
  | .len0 => .next (emit (byteOf s.actsize 0) s)
  | .len1 => .next (emit (byteOf s.actsize 1) s)
  | .data k => atPayload s k fun a => .next (emit (s.byteAt a) { s with chk := xorUpd s.chk (s.byteAt a) })
  | .stop => .next (emit Config.eastStop s)
  | .chk0 => .next (emit (byteOf s.chk 0) s)
  | .chk1 => .next (emitLast (byteOf s.chk 1) s)

/-- `EAST.SETBUF mode, ptr, size` (R120). -/
def execEastSetbuf (mode : Mode) (ptr : Addr) (size : Word) (s : State) : Result :=
  onVariant .east s (.next (setBuffer .east mode ptr size s))

/-- `EAST.PUTBYTE value` (R125): mode check, completion check, then the stage step (R100). -/
def execEastPutbyte (value : Byte) (s : State) : Result :=
  onVariant .east s <|
    match putCheck s with
    | some why => .next (refuse why s)
    | none =>
      match eastStage s.index.toNat s.actsize.toNat with
      | some st => eastPutStage st value s
      | none => .fault .stageOutsideTable

/-- `EAST.GETBYTE` (R126): mode check, completion check, then the stage step (R100). -/
def execEastGetbyte (s : State) : Result :=
  onVariant .east s <|
    match getCheck s with
    | some why => .next (refuse why s)
    | none =>
      match eastStage s.index.toNat s.actsize.toNat with
      | some st => eastGetStage st s
      | none => .fault .stageOutsideTable

/-- `EAST.GETSIZE` (R127). -/
def execEastGetsize (s : State) : Result :=
  onVariant .east s (.next (respondSize (packetSize .east s) s))

end Sys2Proof.Machine
end

