-- ==== Sys2Proof/Machine/Ice.lean ====
section
/-! DEFINITION. The operations of an ICEMKII instance (42_icemkii_framer.md): `ICE.SETBUF` (R150), `ICE.SETSEQ`
(R151), `ICE.PUTBYTE` (R155), `ICE.GETBYTE` (R156), `ICE.GETSIZE` (R157). -/

namespace Sys2Proof.Machine

/-- What `ICE.PUTBYTE` does with the byte `v` at each stage (R155). -/
def icePutStage (st : IceStage) (v : Byte) (s : State) : Result :=
  match st with
  | .start =>
    if v = Config.iceStart then
      .next (accept { s with ok := true, chk := crcUpd Config.iceSeed v, actsize := 0 })
    else .next (malformed .badStart s)
  | .seq0 => .next (accept { s with seq := setByte s.seq 0 v, chk := crcUpd s.chk v })
  | .seq1 => .next (accept { s with seq := setByte s.seq 1 v, chk := crcUpd s.chk v })
  | .len0 => .next (accept { s with actsize := setByte s.actsize 0 v, chk := crcUpd s.chk v })
  | .len1 => .next (accept { s with actsize := setByte s.actsize 1 v, chk := crcUpd s.chk v })
  | .len2 => .next (accept { s with actsize := setByte s.actsize 2 v, chk := crcUpd s.chk v })
  | .len3 =>
    if lengthValid (iceLength s.actsize v) s.maxsize then
      .next (accept { s with actsize := iceLength s.actsize v, chk := crcUpd s.chk v })
    else .next (malformed .badLength s)
  | .token =>
    if v = Config.iceToken then .next (accept { s with chk := crcUpd s.chk v })
    else .next (malformed .badStopOrToken s)
  | .data k => atPayload s k fun a => .next (accept { s.storeByte a v with chk := crcUpd s.chk v })
  | .chk0 => .next (accept { s with rxl := v })
  | .chk1 =>
    if receivedCheck v s.rxl = s.chk then .next (acceptLast s)
    else .next (malformed .checkMismatch s)

/-- The serialiser sends the byte `b` and accumulates it (R156). -/
def iceEmit (b : Byte) (s : State) : State := emit b { s with chk := crcUpd s.chk b }

/-- What `ICE.GETBYTE` does at each stage (R156). -/
def iceGetStage (st : IceStage) (s : State) : Result :=
  match st with
  | .start => .next (emit Config.iceStart { s with chk := crcUpd Config.iceSeed Config.iceStart })
  | .seq0 => .next (iceEmit (byteOf s.seq 0) s)
  | .seq1 => .next (iceEmit (byteOf s.seq 1) s)
  | .len0 => .next (iceEmit (byteOf s.actsize 0) s)
  | .len1 => .next (iceEmit (byteOf s.actsize 1) s)
  | .len2 => .next (iceEmit (byteOf s.actsize 2) s)
  | .len3 => .next (iceEmit (byteOf s.actsize 3) s)
  | .token => .next (iceEmit Config.iceToken s)
  | .data k => atPayload s k fun a => .next (iceEmit (s.byteAt a) s)
  | .chk0 => .next (emit (byteOf s.chk 0) s)
  | .chk1 => .next (emitLast (byteOf s.chk 1) s)

/-- `ICE.SETBUF mode, ptr, size` (R150). -/
def execIceSetbuf (mode : Mode) (ptr : Addr) (size : Word) (s : State) : Result :=
  onVariant .icemkii s (.next (setBuffer .icemkii mode ptr size s))

/-- `ICE.SETSEQ seq` (R151): `SEQ <- seq`, never refused on an ICEMKII instance. -/
def execIceSetseq (seq : Half) (s : State) : Result :=
  onVariant .icemkii s (.next (respond .inProgress { s with seq := seq }))

/-- `ICE.PUTBYTE value` (R155): mode check, completion check, then the stage step (R100). -/
def execIcePutbyte (value : Byte) (s : State) : Result :=
  onVariant .icemkii s <|
    match putCheck s with
    | some why => .next (refuse why s)
    | none =>
      match iceStage s.index.toNat s.actsize.toNat with
      | some st => icePutStage st value s
      | none => .fault .stageOutsideTable

/-- `ICE.GETBYTE` (R156): mode check, completion check, then the stage step (R100). -/
def execIceGetbyte (s : State) : Result :=
  onVariant .icemkii s <|
    match getCheck s with
    | some why => .next (refuse why s)
    | none =>
      match iceStage s.index.toNat s.actsize.toNat with
      | some st => iceGetStage st s
      | none => .fault .stageOutsideTable

/-- `ICE.GETSIZE` (R157). -/
def execIceGetsize (s : State) : Result :=
  onVariant .icemkii s (.next (respondSize (packetSize .icemkii s) s))

end Sys2Proof.Machine
end

