-- ==== Sys2Proof/Machine/Dispatch.lean ====
section
/-! DEFINITION. One arm per operation of the opcode table. -/

namespace Sys2Proof.Machine

def exec (i : Instr) (s : State) : Host.Outcome State Fault Refusal :=
  match i with
  | .nop => Sys2Proof.Machine.execNop s
  | .eastSetbuf mode ptr size => Sys2Proof.Machine.execEastSetbuf mode ptr size s
  | .eastPutbyte value => Sys2Proof.Machine.execEastPutbyte value s
  | .eastGetbyte => Sys2Proof.Machine.execEastGetbyte s
  | .eastGetsize => Sys2Proof.Machine.execEastGetsize s
  | .iceSetbuf mode ptr size => Sys2Proof.Machine.execIceSetbuf mode ptr size s
  | .icePutbyte value => Sys2Proof.Machine.execIcePutbyte value s
  | .iceGetbyte => Sys2Proof.Machine.execIceGetbyte s
  | .iceGetsize => Sys2Proof.Machine.execIceGetsize s
  | .iceSetseq seq => Sys2Proof.Machine.execIceSetseq seq s
  | .reserved5 => Sys2Proof.Machine.execReserved5 s
  | .reserved6 => Sys2Proof.Machine.execReserved6 s
  | .reserved7 => Sys2Proof.Machine.execReserved7 s

end Sys2Proof.Machine
end

