-- ==== Sys2Proof/Machine/Step.lean ====
section
/-! DEFINITION. One step: the caller's next move happens (R11 of 00_scope.md, R249 of 70_reset_and_hazards.md). -/

namespace Sys2Proof.Machine

/-- One move of the caller is taken: a command is decoded for this instance's variant and executed (R100 of
40_dispatch_and_common.md); `rst` resets (R230); a memory write lands (R60). With no move waiting the `op` port holds
its idle value, `NOP` (R108; DEDUCED, log 4). -/
def step (s : State) : Host.Outcome State Fault Refusal :=
  match s.inbox with
  | [] => exec (decode s.variant Ports.idle) s
  | .command p :: later => exec (decode s.variant p) { s with inbox := later }
  | .rst :: later => .next (hardwareReset { s with inbox := later })
  | .memWrite a b :: later => .next (callerWrite a b { s with inbox := later })

/-- `s` with the command of a table word presented as the caller's next move (log 3): the very next step runs it. -/
def State.withFetchWord (s : State) (nbits w : Nat) : State :=
  presentCommand (Ports.ofWord (BitVec.ofNat commandBits (w % 2 ^ nbits))) s

end Sys2Proof.Machine
end

