-- ==== Sys2Proof/Machine/Wire.lean ====
section
/-! DEFINITION. The wire formats (R70 to R75 of 30_encoding.md), as byte lists, apart from the operations that parse
and produce them. -/

namespace Sys2Proof.Machine

/-- The EAST check value of a payload (R74): the XOR of its bytes, zero-extended, from 0x0000. -/
def eastChecksum (p : List Byte) : Half := p.foldl xorUpd Config.eastSeed

/-- An EAST frame with the trailer value `c` (R71). -/
def eastFrameWith (c : Half) (p : List Byte) : List Byte :=
  [Config.eastStart, byteOf (BitVec.ofNat 16 p.length) 0, byteOf (BitVec.ofNat 16 p.length) 1] ++ p ++
    [Config.eastStop, byteOf c 0, byteOf c 1]

/-- The EAST frame of a payload (R71, R74). -/
def eastFrame (p : List Byte) : List Byte := eastFrameWith (eastChecksum p) p

/-- The bytes of an ICEMKII frame that its CRC covers: start token through last payload byte (R73, R75). -/
def iceCovered (seq : Half) (p : List Byte) : List Byte :=
  [Config.iceStart, byteOf seq 0, byteOf seq 1, byteOf (BitVec.ofNat 32 p.length) 0,
    byteOf (BitVec.ofNat 32 p.length) 1, byteOf (BitVec.ofNat 32 p.length) 2,
    byteOf (BitVec.ofNat 32 p.length) 3, Config.iceToken] ++ p

/-- The CRC of a byte sequence (R75): seed 0xFFFF, no final XOR. -/
def crcOf (bs : List Byte) : Half := bs.foldl crcUpd Config.iceSeed

/-- An ICEMKII frame with the trailer value `c` (R73). -/
def iceFrameWith (c : Half) (seq : Half) (p : List Byte) : List Byte :=
  iceCovered seq p ++ [byteOf c 0, byteOf c 1]

/-- The ICEMKII frame of a sequence number and a payload (R73, R75). -/
def iceFrame (seq : Half) (p : List Byte) : List Byte := iceFrameWith (crcOf (iceCovered seq p)) seq p

/-- The `n` bytes of buffer memory from address `a` on, as the block reads them. -/
def State.window (s : State) (a n : Nat) : List Byte := (List.range n).map fun k => s.byteAt (a + k)

end Sys2Proof.Machine
end

