-- ==== Sys2Proof/Safety.lean ====
section
/-! DEFINITION. What claims about runs are stated in: the invariant of R35 of 10_state.md, the operation a step
executes, runs of steps, and sequences of operations with their responses. -/

namespace Sys2Proof.Machine

/-- The invariant of the machine: R35 items 1 to 9, and what they need beside them to be kept by every step. -/
structure State.Inv (s : State) : Prop where
  /-- R35 item 1. -/
  idleLength : s.mode = .input → s.index = 0 → s.complete = false → s.actsize = 0
  /-- R35 item 2. -/
  payloadLength : s.mode = .input → Config.hdr s.variant ≤ s.index.toNat →
    1 ≤ s.actsize.toNat ∧ s.actsize.toNat ≤ s.maxsize.toNat
  /-- R35 item 3. -/
  parsedFrame : s.mode = .input → s.complete = true →
    s.index = 0 ∧ s.ok = true ∧ 1 ≤ s.actsize.toNat ∧ s.actsize.toNat ≤ s.maxsize.toNat
  /-- R35 item 4. -/
  outputBinding : s.mode = .output →
    1 ≤ s.actsize.toNat ∧ s.actsize = s.maxsize ∧ s.maxsize.toNat ≤ Config.limit s.variant ∧ s.ok = false
  /-- R35 item 5. -/
  sentFrame : s.mode = .output → s.complete = true → s.index = 0
  /-- R35 item 6. -/
  frameOk : s.mode = .input → 0 < s.index.toNat → s.ok = true
  /-- R35 item 7. -/
  indexBound : s.index.toNat ≤ Config.hdr s.variant - 1 ∨
    s.index.toNat ≤ s.actsize.toNat + Config.ovh s.variant - 1
  /-- R35 item 8. -/
  eastCheck : s.variant = .east → s.chk.extractLsb' 8 8 = 0
  /-- R35 item 9. -/
  windowInMemory : s.bufptr.toNat + s.maxsize.toNat ≤ Config.addrSpace
  /-- The legal values of `MAXSIZE` (R32). -/
  sizeLimit : s.maxsize.toNat ≤ Config.limit s.variant
  /-- On ICEMKII the learned length is in force from the `TOKEN` stage on (R23, R155). -/
  tokenLength : s.variant = .icemkii → s.mode = .input → s.index.toNat = 7 →
    1 ≤ s.actsize.toNat ∧ s.actsize.toNat ≤ s.maxsize.toNat
  /-- Memory is in canonical form. -/
  memoryForm : s.mem.wf = true

/-- The operation that `step` executes in `s`; none when the caller's next move is no command. -/
def State.asked (s : State) : Option Instr :=
  match s.inbox with
  | [] => some (decode s.variant Ports.idle)
  | .command p :: _ => some (decode s.variant p)
  | .rst :: _ => none
  | .memWrite _ _ :: _ => none

/-- The caller's next move is the `rst` input. -/
def State.resetting (s : State) : Prop := s.inbox.head? = some .rst

/-- The operands of a `SetBuffer` are such that R208 refuses it. -/
def refusedOperands (v : Variant) (mode : Mode) (ptr : Addr) (size : Word) : Prop :=
  Config.limit v < size.toNat ∨ Config.addrSpace < ptr.toNat + size.toNat ∨ (mode = .output ∧ size = 0)

/-- An answer with the same change made to its state. -/
def Result.mapState (f : State → State) : Result → Result
  | .next t => .next (f t)
  | .fault r => .fault r
  | .refused r => .refused r

/-- `k` steps, ending at the first stop. -/
def runFor : Nat → State → Result
  | 0, s => .next s
  | k + 1, s =>
    match step s with
    | .next t => runFor k t
    | .fault r => .fault r
    | .refused r => .refused r

/-- Execute operations one after another: the response of each, in order, and the last state; none if one stops. -/
def execAll : List Instr → State → Option (List (Option Response) × State)
  | [], s => some ([], s)
  | i :: is, s =>
    match exec i s with
    | .next t => (execAll is t).map fun (rs, u) => (t.response :: rs, u)
    | .fault _ => none
    | .refused _ => none

/-- The response to a byte that is not a frame's last: `InProgress`, no data. -/
def inProgressResponse : Option Response := some ⟨.inProgress, 0, 0⟩

/-- The response to a valid frame's last byte: `Complete`, no data. -/
def completeResponse : Option Response := some ⟨.complete, 0, 0⟩

/-- The responses of a parser that is fed `n` bytes and completes with the last. -/
def parsedResponses (n : Nat) : List (Option Response) :=
  List.replicate (n - 1) inProgressResponse ++ [completeResponse]

/-- The responses of a serialiser that produces the bytes of a frame: `Complete` with the last byte only. -/
def sentResponses : List Byte → List (Option Response)
  | [] => []
  | [b] => [some ⟨.complete, b, 0⟩]
  | b :: c :: bs => some ⟨.inProgress, b, 0⟩ :: sentResponses (c :: bs)

end Sys2Proof.Machine
end

