-- ==== Sys2Proof/Certificates/Slice0/Obligations.lean ====
section
/-! DEFINITION. The statements for the provers, from the rules of spec/. A statement that says "for every state" holds
in states no run reaches as well, or takes `State.Inv` as a premise; that every step keeps `State.Inv` is
`Obligations.EveryStepKeepsTheInvariant`. -/

open Sys2Proof Sys2Proof.Machine

/-! ## Encoding (30_encoding.md) -/

/-- R80 with R79: for every value on every port, the operation each code asks for on each variant; the ports that an
operation does not use make no difference. What a command decodes to is an operation of the instance's own variant, so
a command never meets the refusal `otherVariant` (log 8). -/
def Obligations.OperationMapForAllPortValues : Prop :=
  ∀ (m : BitVec 1) (a : Addr) (n : Word) (b : Byte) (q : Half),
    (∀ v, decode v ⟨0, m, a, n, b, q⟩ = .nop) ∧
    decode .east ⟨1, 0, a, n, b, q⟩ = .eastSetbuf .input a n ∧
    decode .east ⟨1, 1, a, n, b, q⟩ = .eastSetbuf .output a n ∧
    decode .east ⟨2, m, a, n, b, q⟩ = .eastPutbyte b ∧
    decode .east ⟨3, m, a, n, b, q⟩ = .eastGetbyte ∧
    decode .east ⟨4, m, a, n, b, q⟩ = .eastGetsize ∧
    decode .east ⟨5, m, a, n, b, q⟩ = .reserved5 ∧
    decode .icemkii ⟨1, 0, a, n, b, q⟩ = .iceSetbuf .input a n ∧
    decode .icemkii ⟨1, 1, a, n, b, q⟩ = .iceSetbuf .output a n ∧
    decode .icemkii ⟨2, m, a, n, b, q⟩ = .icePutbyte b ∧
    decode .icemkii ⟨3, m, a, n, b, q⟩ = .iceGetbyte ∧
    decode .icemkii ⟨4, m, a, n, b, q⟩ = .iceGetsize ∧
    decode .icemkii ⟨5, m, a, n, b, q⟩ = .iceSetseq q ∧
    (∀ v, decode v ⟨6, m, a, n, b, q⟩ = .reserved6) ∧
    (∀ v, decode v ⟨7, m, a, n, b, q⟩ = .reserved7) ∧
    ∀ (v : Variant) (p : Ports), (decode v p).wf v = true ∧ (decode v p).op = p.op

/-- A few command words written out (op at bits 2:0; the places of the other ports are the model's choice, log 5),
from R80: `ICE.SETSEQ 0xBEEF`, `EAST.PUTBYTE 0x24`, `EAST.SETBUF out, 0x20000400, 3`, and the bare codes. -/
def Obligations.WrittenOutCommandWordsDecode : Prop :=
  decodeWord .icemkii 0xBEEF0000000000000000005 = .ok (.iceSetseq 0xBEEF) ∧
  decodeWord .east 0x2400000000000000002 = .ok (.eastPutbyte 0x24) ∧
  decodeWord .east 0x3200004009 = .ok (.eastSetbuf .output 0x20000400 3) ∧
  decodeWord .east 5 = .ok .reserved5 ∧ decodeWord .icemkii 3 = .ok .iceGetbyte ∧
  decodeWord .icemkii 4 = .ok .iceGetsize ∧ decodeWord .east 0 = .ok .nop ∧
  decodeWord .east (2 ^ 92) = .error .bitsBeyondPorts

/-- Decode and encode agree, over the whole command word and over its bytes: no bit of an operand is dropped. The
layout of the word is the model's choice (log 5). -/
def Obligations.DecodingAnEncodedCommandGivesItBack : Prop :=
  ∀ (v : Variant) (i : Instr), i.wf v = true →
    decodeWord v (encodeWord i) = .ok i ∧ (encodeBytes i).length = 12 ∧ decodeBytes v (encodeBytes i) = .ok i

/-! ## The step (40_dispatch_and_common.md, 70_reset_and_hazards.md) -/

/-- A command at the head of the caller's moves is decoded and executed, and nothing else happens; so is the encoding
of any operation of the instance, and a table word (the moves are the model's field, log 3). -/
def Obligations.StepExecutesThePresentedCommand : Prop :=
  (∀ (s : State) (p : Ports) (later : List HostMove), s.inbox = .command p :: later →
    step s = exec (decode s.variant p) { s with inbox := later }) ∧
  (∀ (s : State) (i : Instr), i.wf s.variant = true → step (presentCommand (encode i) s) = exec i s) ∧
  (∀ (s : State) (nbits w : Nat) (i : Instr), w < 2 ^ nbits → decodeWord s.variant w = .ok i →
    step (s.withFetchWord nbits w) = exec i s)

/-- With no move waiting the `op` port is idle, which is `NOP` (R108; that an idle port is a `NOP` is the model's
inference, log 4): the response is `InProgress` and everything else is kept. -/
def Obligations.IdlePortsExecuteNop : Prop :=
  ∀ s : State, s.inbox = [] →
    step s = .next { s with response := some ⟨.inProgress, 0, 0⟩, txc := false, rxc := false }

/-- R230, the hardware reset: every register to the value of R32's hardware reset column, memory untouched, no
response, no event. -/
def Obligations.HardwareResetClearsEveryRegisterAndKeepsMemory : Prop :=
  ∀ (s : State) (later : List HostMove), s.inbox = .rst :: later →
    step s = .next
      { variant := s.variant, bufptr := 0, maxsize := 0, actsize := 0, index := 0, chk := 0, seq := 0, rxl := 0,
        ok := false, complete := false, mode := .input, mem := s.mem, response := none, txc := false, rxc := false,
        inbox := later }

/-- A byte written to buffer memory from outside is the byte read there afterwards; every other byte and every register
keeps its value; the step gives no response and no event (R52, R60; the move itself is the model's, log 3). -/
def Obligations.CallerWriteChangesExactlyOneByte : Prop :=
  ∀ (s : State) (a : Addr) (b : Byte) (later : List HostMove), s.inbox = .memWrite a b :: later →
    ∃ t, step s = .next t ∧ t.byteAt a.toNat = b ∧ (∀ a', a' ≠ a.toNat → t.byteAt a' = s.byteAt a') ∧
      t = { s with mem := t.mem, response := none, txc := false, rxc := false, inbox := later }

/-! ## The operations, one rule each -/

/-- R108. -/
def Obligations.NopOnlyAnswersInProgress : Prop :=
  ∀ s : State, exec .nop s =
    .next { s with response := some ⟨.inProgress, 0, 0⟩, txc := false, rxc := false }

/-- R109: the reserved codes, on both variants, whatever the operand ports carry, are refused with no effect; and so
each reserved operation completes. -/
def Obligations.ReservedCodesAreRefusedWithoutEffect : Prop :=
  (∀ (s : State) (p : Ports), (p.op = 6 ∨ p.op = 7 ∨ (p.op = 5 ∧ s.variant = .east)) →
    exec (decode s.variant p) s =
      .next { s with response := some ⟨.error, 0, 0⟩, txc := false, rxc := false }) ∧
  ∀ s : State,
    (s.variant = .east →
      exec .reserved5 s = .next { s with response := some ⟨.error, 0, 0⟩, txc := false, rxc := false }) ∧
    exec .reserved6 s = .next { s with response := some ⟨.error, 0, 0⟩, txc := false, rxc := false } ∧
    exec .reserved7 s = .next { s with response := some ⟨.error, 0, 0⟩, txc := false, rxc := false }

/-- R120. -/
def Obligations.EastSetbufFollowsItsRule : Prop :=
  ∀ (s : State) (mode : Mode) (ptr : Addr) (size : Word), s.variant = .east →
    exec (.eastSetbuf mode ptr size) s = .next
      (if 65535 < size.toNat ∨ 2 ^ 32 < ptr.toNat + size.toNat ∨ (mode = .output ∧ size = 0) then
        { s with response := some ⟨.error, 0, 0⟩, txc := false, rxc := false }
      else
        { s with
          bufptr := ptr, mode := mode, maxsize := size
          actsize := if mode = .output then size else 0
          index := 0, chk := 0, rxl := 0, ok := false, complete := false
          response := some ⟨.inProgress, 0, 0⟩, txc := false, rxc := false })

/-- R150. -/
def Obligations.IceSetbufFollowsItsRule : Prop :=
  ∀ (s : State) (mode : Mode) (ptr : Addr) (size : Word), s.variant = .icemkii →
    exec (.iceSetbuf mode ptr size) s = .next
      (if 0xFFFFFFF5 < size.toNat ∨ 2 ^ 32 < ptr.toNat + size.toNat ∨ (mode = .output ∧ size = 0) then
        { s with response := some ⟨.error, 0, 0⟩, txc := false, rxc := false }
      else
        { s with
          bufptr := ptr, mode := mode, maxsize := size
          actsize := if mode = .output then size else 0
          index := 0, chk := 0, rxl := 0, ok := false, complete := false
          response := some ⟨.inProgress, 0, 0⟩, txc := false, rxc := false })

/-- R151. -/
def Obligations.IceSetseqWritesOnlySeq : Prop :=
  ∀ (s : State) (q : Half), s.variant = .icemkii →
    exec (.iceSetseq q) s =
      .next { s with seq := q, response := some ⟨.inProgress, 0, 0⟩, txc := false, rxc := false }

/-- R125, the whole pseudocode with its two precondition checks, in every state that satisfies the invariant. -/
def Obligations.EastPutbyteFollowsItsRule : Prop :=
  ∀ (s : State) (v : Byte), s.variant = .east → s.Inv →
    let i := s.index.toNat
    let n := s.actsize.toNat
    let refused := { s with response := some ⟨.error, 0, 0⟩, txc := false, rxc := false }
    let going := { s with response := some ⟨.inProgress, 0, 0⟩, txc := false, rxc := false }
    let malformed := { going with index := 0, actsize := 0, ok := false }
    let len := (s.actsize.toNat % 256 + 256 * v.toNat : Nat)
    exec (.eastPutbyte v) s = .next
      (if s.mode = .output then refused
      else if s.complete then refused
      else if i = 0 then
        if v = 0x24 then { going with ok := true, chk := 0, actsize := 0, index := 1 } else malformed
      else if i = 1 then { going with actsize := BitVec.ofNat 32 v.toNat, index := 2 }
      else if i = 2 then
        if 1 ≤ len ∧ len ≤ s.maxsize.toNat then { going with actsize := BitVec.ofNat 32 len, index := 3 }
        else malformed
      else if i ≤ n + 2 then
        { going with
          mem := s.mem.write (s.bufptr.toNat + (i - 3)) v
          chk := s.chk ^^^ BitVec.ofNat 16 v.toNat
          index := BitVec.ofNat 32 (i + 1) }
      else if i = n + 3 then
        if v = 0x42 then { going with index := BitVec.ofNat 32 (i + 1) } else malformed
      else if i = n + 4 then { going with rxl := v, index := BitVec.ofNat 32 (i + 1) }
      else if v.toNat * 256 + s.rxl.toNat = s.chk.toNat then
        { s with
          index := 0, complete := true
          response := some ⟨.complete, 0, 0⟩, txc := false, rxc := true }
      else malformed)

/-- R155, the whole pseudocode with its two precondition checks, in every state that satisfies the invariant. -/
def Obligations.IcePutbyteFollowsItsRule : Prop :=
  ∀ (s : State) (v : Byte), s.variant = .icemkii → s.Inv →
    let i := s.index.toNat
    let n := s.actsize.toNat
    let refused := { s with response := some ⟨.error, 0, 0⟩, txc := false, rxc := false }
    let going := { s with response := some ⟨.inProgress, 0, 0⟩, txc := false, rxc := false }
    let counted := { going with chk := crcUpd s.chk v, index := BitVec.ofNat 32 (i + 1) }
    let malformed := { going with index := 0, actsize := 0, ok := false }
    let len := (s.actsize.toNat % 2 ^ 24 + 2 ^ 24 * v.toNat : Nat)
    exec (.icePutbyte v) s = .next
      (if s.mode = .output then refused
      else if s.complete then refused
      else if i = 0 then
        if v = 0x1B then { counted with ok := true, chk := crcUpd 0xFFFF v, actsize := 0 } else malformed
      else if i = 1 then { counted with seq := s.seq.extractLsb' 8 8 ++ v }
      else if i = 2 then { counted with seq := v ++ s.seq.extractLsb' 0 8 }
      else if i = 3 then { counted with actsize := s.actsize.extractLsb' 8 24 ++ v }
      else if i = 4 then { counted with actsize := s.actsize.extractLsb' 16 16 ++ v ++ s.actsize.extractLsb' 0 8 }
      else if i = 5 then { counted with actsize := s.actsize.extractLsb' 24 8 ++ v ++ s.actsize.extractLsb' 0 16 }
      else if i = 6 then
        if 1 ≤ len ∧ len ≤ s.maxsize.toNat then { counted with actsize := BitVec.ofNat 32 len } else malformed
      else if i = 7 then if v = 0x0E then counted else malformed
      else if i ≤ n + 7 then { counted with mem := s.mem.write (s.bufptr.toNat + (i - 8)) v }
      else if i = n + 8 then { going with rxl := v, index := BitVec.ofNat 32 (i + 1) }
      else if v.toNat * 256 + s.rxl.toNat = s.chk.toNat then
        { s with
          index := 0, complete := true
          response := some ⟨.complete, 0, 0⟩, txc := false, rxc := true }
      else malformed)

/-- R126, the whole pseudocode with its two precondition checks, in every state that satisfies the invariant. A byte
of memory that nothing has written is `Config.unwrittenByte` of its address, whatever that is (log 7). -/
def Obligations.EastGetbyteFollowsItsRule : Prop :=
  ∀ s : State, s.variant = .east → s.Inv →
    let i := s.index.toNat
    let n := s.actsize.toNat
    let refused := { s with response := some ⟨.error, 0, 0⟩, txc := false, rxc := false }
    let sent (b : Byte) : State :=
      { s with response := some ⟨.inProgress, b, 0⟩, txc := false, rxc := false, index := BitVec.ofNat 32 (i + 1) }
    let b := s.byteAt (s.bufptr.toNat + (i - 3))
    exec .eastGetbyte s = .next
      (if s.mode = .input then refused
      else if s.complete then refused
      else if i = 0 then { sent 0x24 with chk := 0 }
      else if i = 1 then sent (BitVec.ofNat 8 n)
      else if i = 2 then sent (BitVec.ofNat 8 (n / 256))
      else if i ≤ n + 2 then { sent b with chk := s.chk ^^^ BitVec.ofNat 16 b.toNat }
      else if i = n + 3 then sent 0x42
      else if i = n + 4 then sent (BitVec.ofNat 8 s.chk.toNat)
      else
        { s with
          index := 0, complete := true
          response := some ⟨.complete, BitVec.ofNat 8 (s.chk.toNat / 256), 0⟩, txc := true, rxc := false })

/-- R156, the whole pseudocode with its two precondition checks, in every state that satisfies the invariant. A byte
of memory that nothing has written is `Config.unwrittenByte` of its address, whatever that is (log 7). -/
def Obligations.IceGetbyteFollowsItsRule : Prop :=
  ∀ s : State, s.variant = .icemkii → s.Inv →
    let i := s.index.toNat
    let n := s.actsize.toNat
    let refused := { s with response := some ⟨.error, 0, 0⟩, txc := false, rxc := false }
    let sent (b : Byte) : State :=
      { s with response := some ⟨.inProgress, b, 0⟩, txc := false, rxc := false, index := BitVec.ofNat 32 (i + 1) }
    let counted (b : Byte) : State := { sent b with chk := crcUpd s.chk b }
    exec .iceGetbyte s = .next
      (if s.mode = .input then refused
      else if s.complete then refused
      else if i = 0 then { sent 0x1B with chk := crcUpd 0xFFFF 0x1B }
      else if i = 1 then counted (BitVec.ofNat 8 s.seq.toNat)
      else if i = 2 then counted (BitVec.ofNat 8 (s.seq.toNat / 256))
      else if i ≤ 6 then counted (BitVec.ofNat 8 (n / 256 ^ (i - 3)))
      else if i = 7 then counted 0x0E
      else if i ≤ n + 7 then counted (s.byteAt (s.bufptr.toNat + (i - 8)))
      else if i = n + 8 then sent (BitVec.ofNat 8 s.chk.toNat)
      else
        { s with
          index := 0, complete := true
          response := some ⟨.complete, BitVec.ofNat 8 (s.chk.toNat / 256), 0⟩, txc := true, rxc := false })

/-- R127, the reported size: in input mode during a frame it is the pinned value of D14 (log 16). -/
def Obligations.EastGetsizeFollowsItsRule : Prop :=
  ∀ s : State, s.variant = .east → s.Inv →
    exec .eastGetsize s = .next
      { s with
        response := some ⟨.inProgress, 0,
          if s.mode = .output then
            if s.complete then 0 else BitVec.ofNat 32 (s.actsize.toNat + 6 - s.index.toNat)
          else s.actsize⟩
        txc := false, rxc := false }

/-- R157, the reported size: in input mode during a frame it is the pinned value of D14 (log 16). -/
def Obligations.IceGetsizeFollowsItsRule : Prop :=
  ∀ s : State, s.variant = .icemkii → s.Inv →
    exec .iceGetsize s = .next
      { s with
        response := some ⟨.inProgress, 0,
          if s.mode = .output then
            if s.complete then 0 else BitVec.ofNat 32 (s.actsize.toNat + 10 - s.index.toNat)
          else s.actsize⟩
        txc := false, rxc := false }

/-- R127 and R157, output mode: each `GETBYTE` takes one from the reported size, before the last it is 1, after it 0. -/
def Obligations.ReportedSizeFallsByOneWithEachGetbyte : Prop :=
  ∀ s t : State, s.Inv → s.mode = .output → s.complete = false →
    (exec .eastGetbyte s = .next t ∨ exec .iceGetbyte s = .next t) →
    (packetSize t.variant t).toNat + 1 = (packetSize s.variant s).toNat ∧
    (t.complete = true ↔ (packetSize s.variant s).toNat = 1)

/-! ## Frames: what operations leave unchanged -/

/-- `PUTBYTE`, both variants: at an accepted payload stage exactly the byte at that stage's address is stored; at every
other stage, and when it is refused, every byte of memory reads as before. `BUFPTR`, `MAXSIZE`, `MODE`, the variant and
the caller's moves are unchanged; `SEQ` too on EAST, and on ICEMKII but for `INDEX` 1 and 2. -/
def Obligations.PutbyteFrame : Prop :=
  ∀ (s t : State) (v : Byte) (i : Instr), (i = .eastPutbyte v ∨ i = .icePutbyte v) → exec i s = .next t →
    let payload (k : Nat) : Prop := s.mode = .input ∧ s.complete = false ∧
      (i = .eastPutbyte v ∧ eastStage s.index.toNat s.actsize.toNat = some (.data k) ∨
        i = .icePutbyte v ∧ iceStage s.index.toNat s.actsize.toNat = some (.data k))
    (∀ k, payload k → t.mem.read (payloadAddr s k) = some v ∧
      ∀ a, a ≠ payloadAddr s k → t.mem.read a = s.mem.read a) ∧
    ((∀ k, ¬payload k) → ∀ a, t.mem.read a = s.mem.read a) ∧
    t.bufptr = s.bufptr ∧ t.maxsize = s.maxsize ∧ t.mode = s.mode ∧ t.variant = s.variant ∧ t.inbox = s.inbox ∧
    (i = .eastPutbyte v ∨ (s.index.toNat ≠ 1 ∧ s.index.toNat ≠ 2) → t.seq = s.seq)

/-- `GETBYTE`, both variants: it stores nothing, and writes no register but `CHK`, `INDEX`, `COMPLETE`. -/
def Obligations.GetbyteFrame : Prop :=
  ∀ s t : State, (exec .eastGetbyte s = .next t ∨ exec .iceGetbyte s = .next t) →
    (∀ a, t.mem.read a = s.mem.read a) ∧
    t = { s with
      chk := t.chk, index := t.index, complete := t.complete
      response := t.response, txc := t.txc, rxc := t.rxc }

/-- `NOP` (R108), the reserved codes (R109), `GETSIZE` (R127, R157), `SETSEQ` (R151), `SETBUF` (R120, R150): memory
reads as before at every address; all but `SETBUF` and `SETSEQ` write no register at all, `SETSEQ` writes `SEQ`
only, `SETBUF` leaves `SEQ` as it was. -/
def Obligations.OtherOperationsFrame : Prop :=
  ∀ (s t : State) (i : Instr), exec i s = .next t → (∀ v, i ≠ .eastPutbyte v) → (∀ v, i ≠ .icePutbyte v) →
    i ≠ .eastGetbyte → i ≠ .iceGetbyte →
    (∀ a, t.mem.read a = s.mem.read a) ∧ t.variant = s.variant ∧ t.inbox = s.inbox ∧
    ((∀ q, i ≠ .iceSetseq q) → t.seq = s.seq) ∧
    ((∀ m a n, i ≠ .eastSetbuf m a n) → (∀ m a n, i ≠ .iceSetbuf m a n) →
      t = { s with seq := t.seq, response := t.response, txc := t.txc, rxc := t.rxc })

/-! ## Rules about the whole machine (10_state.md, 20_memory.md, 60_exceptions.md) -/

/-- R6 and R21, R22, R31: `VARIANT` never changes; `BUFPTR`, `MAXSIZE` and `MODE` change only at hardware reset and at
an accepted `SETBUF`, which writes its operands into them. -/
def Obligations.BindingIsWrittenOnlyBySetbufAndReset : Prop :=
  ∀ s t : State, step s = .next t →
    t.variant = s.variant ∧
    (s.resetting ∨ (t.bufptr = s.bufptr ∧ t.maxsize = s.maxsize ∧ t.mode = s.mode) ∨
      ∃ m a n, (s.asked = some (.eastSetbuf m a n) ∨ s.asked = some (.iceSetbuf m a n)) ∧
        ¬refusedOperands s.variant m a n ∧ t.bufptr = a ∧ t.maxsize = n ∧ t.mode = m)

/-- R30: what sets `COMPLETE` and what clears it. -/
def Obligations.CompleteIsSetAndClearedOnlyAsItsRuleSays : Prop :=
  ∀ s t : State, s.Inv → step s = .next t →
    (s.complete = false → t.complete = true →
      s.index.toNat + 1 = s.actsize.toNat + Config.ovh s.variant ∧
      ((s.mode = .input ∧ ∃ v, (s.asked = some (.eastPutbyte v) ∨ s.asked = some (.icePutbyte v)) ∧
          receivedCheck v s.rxl = s.chk) ∨
        (s.mode = .output ∧ (s.asked = some .eastGetbyte ∨ s.asked = some .iceGetbyte)))) ∧
    (s.complete = true → t.complete = false →
      s.resetting ∨ ∃ m a n, (s.asked = some (.eastSetbuf m a n) ∨ s.asked = some (.iceSetbuf m a n)) ∧
        ¬refusedOperands s.variant m a n)

/-- R29, the writes: `OK` becomes 1 only when `PUTBYTE` accepts the start token, and 0 only at a malformed byte, an
accepted `SETBUF` or hardware reset. -/
def Obligations.OkIsWrittenOnlyAsItsRuleSays : Prop :=
  ∀ s t : State, step s = .next t →
    (s.ok = false → t.ok = true → s.mode = .input ∧ s.complete = false ∧ s.index = 0 ∧
      (s.asked = some (.eastPutbyte 0x24) ∨ s.asked = some (.icePutbyte 0x1B))) ∧
    (s.ok = true → t.ok = false →
      s.resetting ∨
      (∃ m a n, (s.asked = some (.eastSetbuf m a n) ∨ s.asked = some (.iceSetbuf m a n)) ∧
        ¬refusedOperands s.variant m a n) ∨
      ∃ v, (s.asked = some (.eastPutbyte v) ∨ s.asked = some (.icePutbyte v)) ∧
        t.index = 0 ∧ t.actsize = 0 ∧ t.response = some ⟨.inProgress, 0, 0⟩)

/-- R29, "No operation reads `OK`": two states that differ only in `OK` step to answers that differ at most in `OK`. -/
def Obligations.OkIsReadByNoOperation : Prop :=
  ∀ (s : State) (b : Bool),
    Result.mapState (fun t => { t with ok := false }) (step { s with ok := b }) =
      Result.mapState (fun t => { t with ok := false }) (step s)

/-- R20: an EAST instance has no `SEQ`: whatever the model's field holds makes no difference to anything else. -/
def Obligations.EastInstanceNeverReadsSeq : Prop :=
  ∀ (s : State) (q : Half), s.variant = .east →
    Result.mapState (fun t => { t with seq := 0 }) (step { s with seq := q }) =
      Result.mapState (fun t => { t with seq := 0 }) (step s)

/-- R27: `SEQ` is written by `ICE.PUTBYTE` at `INDEX` 1 (low byte) and 2 (high byte), by `ICE.SETSEQ`, and by hardware
reset, and by nothing else. -/
def Obligations.SeqIsWrittenOnlyByItsBytesSetseqAndReset : Prop :=
  ∀ s t : State, step s = .next t →
    t.seq = s.seq ∨ (s.resetting ∧ t.seq = 0) ∨
    (∃ q, s.asked = some (.iceSetseq q) ∧ t.seq = q) ∨
    ∃ v, s.asked = some (.icePutbyte v) ∧ s.mode = .input ∧ s.complete = false ∧
      (s.index = 1 ∧ t.seq.extractLsb' 0 8 = v ∧ t.seq.extractLsb' 8 8 = s.seq.extractLsb' 8 8 ∨
        s.index = 2 ∧ t.seq.extractLsb' 8 8 = v ∧ t.seq.extractLsb' 0 8 = s.seq.extractLsb' 0 8)

/-- R28: `RXL` is written by `PUTBYTE` at the low check byte, by an accepted `SETBUF` (to 0) and by hardware reset
(to 0), and it is read by no step but the `PUTBYTE` at the high check byte: in output mode, at any other index, and
whatever the step does that is no `PUTBYTE`, the answer does not depend on it. -/
def Obligations.RxlIsTheLatchOfTheLowCheckByte : Prop :=
  ∀ s : State, s.Inv →
    (∀ t, step s = .next t →
      t.rxl = s.rxl ∨ (s.resetting ∧ t.rxl = 0) ∨
      (t.rxl = 0 ∧ ∃ m a n, (s.asked = some (.eastSetbuf m a n) ∨ s.asked = some (.iceSetbuf m a n)) ∧
        ¬refusedOperands s.variant m a n) ∨
      ∃ v, (s.asked = some (.eastPutbyte v) ∨ s.asked = some (.icePutbyte v)) ∧ t.rxl = v ∧
        s.index.toNat + 2 = s.actsize.toNat + Config.ovh s.variant) ∧
    (∀ r : Byte,
      (s.mode = .output ∨ s.index.toNat + 1 ≠ s.actsize.toNat + Config.ovh s.variant ∨
        ∀ v, s.asked ≠ some (.eastPutbyte v) ∧ s.asked ≠ some (.icePutbyte v)) →
      Result.mapState (fun t => { t with rxl := 0 }) (step { s with rxl := r }) =
        Result.mapState (fun t => { t with rxl := 0 }) (step s))

/-- R25 and R103: `INDEX` stays, moves to `INDEX + 1` without wrapping, or returns to 0; it moves up only by `PUTBYTE`
and `GETBYTE`, and `NOP`, `GETSIZE`, `SETSEQ`, the reserved codes and a memory write leave it alone. -/
def Obligations.IndexStaysAdvancesOrReturnsToZero : Prop :=
  ∀ s t : State, s.Inv → step s = .next t →
    (t.index = s.index ∨ t.index.toNat = s.index.toNat + 1 ∨ t.index = 0) ∧
    (t.index ≠ s.index → s.resetting ∨
      ∃ i, s.asked = some i ∧
        ((∃ v, i = .eastPutbyte v ∨ i = .icePutbyte v) ∨ i = .eastGetbyte ∨ i = .iceGetbyte ∨
          (t.index = 0 ∧ ∃ m a n, i = .eastSetbuf m a n ∨ i = .iceSetbuf m a n)))

/-- R210: `TXC` is asserted with the response of the `GETBYTE` that produces the last byte of a frame, which is
`(Complete, CHK[15:8], 0)`, and with no other step. -/
def Obligations.TxcComesWithTheLastGetbyteOnly : Prop :=
  ∀ s t : State, s.Inv → step s = .next t →
    (t.txc = true ↔ (s.asked = some .eastGetbyte ∨ s.asked = some .iceGetbyte) ∧ s.mode = .output ∧
      s.complete = false ∧ s.index.toNat + 1 = s.actsize.toNat + Config.ovh s.variant) ∧
    (t.txc = true → t.response = some ⟨.complete, s.chk.extractLsb' 8 8, 0⟩)

/-- R211: `RXC` is asserted with the response `(Complete, 0x00, 0)` of the `PUTBYTE` that accepts the last byte of a
valid frame, and with no other step. -/
def Obligations.RxcComesWithTheLastPutbyteOnly : Prop :=
  ∀ s t : State, s.Inv → step s = .next t →
    (t.rxc = true ↔ ∃ v, (s.asked = some (.eastPutbyte v) ∨ s.asked = some (.icePutbyte v)) ∧ s.mode = .input ∧
      s.complete = false ∧ s.index.toNat + 1 = s.actsize.toNat + Config.ovh s.variant ∧
      receivedCheck v s.rxl = s.chk) ∧
    (t.rxc = true → t.response = some ⟨.complete, 0, 0⟩)

/-- R76: `data` is 0x00 but for a `GETBYTE` that is not refused, `size` is 0 but for a `GETSIZE`; the status codes are
0, 1, 2. That a step gives a response exactly when it executes an operation is in part the model's: none after a memory
write (log 6), and one after a step with no move waiting, which is the idle `NOP` (log 4, unsafe for a claim that
counts responses). -/
def Obligations.ResponsePortsFollowTheirRule : Prop :=
  (∀ s t : State, step s = .next t →
    (t.response = none ↔ s.asked = none) ∧
    ∀ r, t.response = some r →
      (r.data ≠ 0 → r.status ≠ .error ∧ (s.asked = some .eastGetbyte ∨ s.asked = some .iceGetbyte)) ∧
      (r.size ≠ 0 → s.asked = some .eastGetsize ∨ s.asked = some .iceGetsize)) ∧
  Status.inProgress.code = 0 ∧ Status.complete.code = 1 ∧ Status.error.code = 2 ∧ ∀ st : Status, st.code ≠ 3

/-- R207: a refused operation answers `(Error, 0x00, 0)` and changes nothing else, no event and no byte of memory among
it; the command is taken from the caller's moves. -/
def Obligations.RefusalChangesNothingButTheResponse : Prop :=
  ∀ (s t : State) (r : Response), step s = .next t → t.response = some r → r.status = .error →
    t = { s with inbox := s.inbox.tail, response := some ⟨.error, 0, 0⟩, txc := false, rxc := false }

/-- R202 with R102, R104, R109, R208: an operation of the instance is refused exactly for the four causes. -/
def Obligations.RefusedExactlyForTheFourCauses : Prop :=
  ∀ (s : State) (i : Instr), s.Inv → i.wf s.variant = true →
    ∃ t r, exec i s = .next t ∧ t.response = some r ∧
      (r.status = .error ↔
        (i = .reserved5 ∨ i = .reserved6 ∨ i = .reserved7) ∨
        (∃ m a n, (i = .eastSetbuf m a n ∨ i = .iceSetbuf m a n) ∧ refusedOperands s.variant m a n) ∨
        ((∃ v, i = .eastPutbyte v ∨ i = .icePutbyte v) ∧ s.mode = .output) ∨
        ((i = .eastGetbyte ∨ i = .iceGetbyte) ∧ s.mode = .input) ∨
        (((∃ v, i = .eastPutbyte v ∨ i = .icePutbyte v) ∨ i = .eastGetbyte ∨ i = .iceGetbyte) ∧ s.complete = true))

/-- R203 and R204: a `PUTBYTE` that sends `INDEX` back to 0 without answering `Complete` changes `INDEX`, `ACTSIZE` and
`OK` to 0 and nothing else, and is answered like a good byte. -/
def Obligations.MalformedByteMakesExactlyThreeWrites : Prop :=
  ∀ (s t : State) (v : Byte), s.Inv → s.mode = .input → s.complete = false →
    (exec (.eastPutbyte v) s = .next t ∨ exec (.icePutbyte v) s = .next t) →
    t.index = 0 → t.complete = false →
    t = { s with
      index := 0, actsize := 0, ok := false
      response := some ⟨.inProgress, 0, 0⟩, txc := false, rxc := false }

/-- R56 and R57: at a payload stage that a `PUTBYTE` or `GETBYTE` reaches, the address lies in the bound window and
below `2^ADDR_W`; and no operation changes a byte outside the window. -/
def Obligations.AccessesStayInTheBoundWindow : Prop :=
  ∀ s : State, s.Inv →
    (∀ k, eastStage s.index.toNat s.actsize.toNat = some (.data k) ∧ s.variant = .east ∨
        iceStage s.index.toNat s.actsize.toNat = some (.data k) ∧ s.variant = .icemkii →
      s.bufptr.toNat ≤ payloadAddr s k ∧ payloadAddr s k < s.bufptr.toNat + s.actsize.toNat ∧
        s.actsize.toNat ≤ s.maxsize.toNat ∧ payloadAddr s k < 2 ^ 32) ∧
    (∀ t a, s.asked ≠ none → step s = .next t →
      a < s.bufptr.toNat ∨ s.bufptr.toNat + s.maxsize.toNat ≤ a → t.mem.read a = s.mem.read a)

/-- R56 for reads: bytes outside the bound window make no difference to what an operation answers, but for memory
itself. -/
def Obligations.BytesOutsideTheWindowAreNeverRead : Prop :=
  ∀ (s : State) (m : Memory) (i : Instr), s.Inv →
    (∀ a, s.bufptr.toNat ≤ a → a < s.bufptr.toNat + s.maxsize.toNat → m.read a = s.mem.read a) →
    Result.mapState (fun t => { t with mem := [] }) (exec i { s with mem := m }) =
      Result.mapState (fun t => { t with mem := [] }) (exec i s)

/-- R32, R20: every register is shown on the status output of its own name, `OK`, `COMPLETE` and `MODE` on `FLAGS` at
their places, and only an ICEMKII instance shows `SEQ`. -/
def Obligations.FlagsOutputShowsOkCompleteMode : Prop :=
  ∀ s : State, s.outputs.flags.getLsbD 0 = s.ok ∧ s.outputs.flags.getLsbD 1 = s.complete ∧
    s.outputs.flags.getLsbD 2 = decide (s.mode = .output) ∧ s.outputs.flags.extractLsb' 3 5 = 0 ∧
    s.outputs.bufptr = s.bufptr ∧ s.outputs.maxsize = s.maxsize ∧ s.outputs.actsize = s.actsize ∧
    s.outputs.index = s.index ∧ s.outputs.chk = s.chk ∧ s.outputs.rxl = s.rxl ∧
    (s.variant = .east → s.outputs.seq = none) ∧ (s.variant = .icemkii → s.outputs.seq = some s.seq)

/-- R36 and R231: an instance bound for input to an empty buffer, as every instance is after hardware reset, accepts
no frame: whatever byte is put, nothing is stored and nothing completes. -/
def Obligations.EmptyBindingAcceptsNoFrame : Prop :=
  ∀ (s : State) (v : Byte) (i : Instr), s.Inv → s.mode = .input → s.maxsize = 0 →
    (i = .eastPutbyte v ∧ s.variant = .east ∨ i = .icePutbyte v ∧ s.variant = .icemkii) →
    ∃ t, exec i s = .next t ∧ (∀ a, t.mem.read a = s.mem.read a) ∧ t.complete = false ∧ t.mode = .input ∧
      t.maxsize = 0 ∧ t.index.toNat < Config.hdr s.variant

/-! ## The invariant -/

/-- The state after hardware reset satisfies the invariant, on either variant. -/
def Obligations.ResetStateSatisfiesTheInvariant : Prop := ∀ v : Variant, (State.resetOf v).Inv

/-- R35's nine items, with the legal sizes, the learned length at `TOKEN` and the canonical form of memory (log 7): every
step keeps the invariant, from every state that satisfies it, whatever moves the caller makes (log 3). -/
def Obligations.EveryStepKeepsTheInvariant : Prop := ∀ s t : State, s.Inv → step s = .next t → t.Inv

/-- R101 and R34: from a state that satisfies the invariant a step always answers a next state; the stage function is
never asked outside its table (the model's fault, log 9) and no address leaves the memory (log 10). -/
def Obligations.NoStepStopsUnderTheInvariant : Prop := ∀ s : State, s.Inv → ∃ t, step s = .next t

/-- Any run of any length, from hardware reset of either variant and from any state that satisfies the invariant, goes
through and ends in a state that satisfies it. R35 gives the invariant's nine items in every reachable state; the rest
is the model's: that no run stops (the two faults of logs 9 and 10 are never met), the canonical form of memory (log
7), the queue of the caller's moves (log 3) and the idle step with none waiting (log 4). -/
def Obligations.EveryRunGoesThrough : Prop :=
  (∀ (k : Nat) (s : State), s.Inv → ∃ t, runFor k s = .next t ∧ t.Inv) ∧
  ∀ (k : Nat) (v : Variant) (moves : List HostMove),
    ∃ t, runFor k { State.resetOf v with inbox := moves } = .next t ∧ t.Inv

/-! ## The CRC (43_crc16.md) -/

/-- R195. -/
def Obligations.CrcUnitValues : Prop :=
  crcUpd 0xFFFF 0x1B = 0xA1D5 ∧ crcUpd 0xA1D5 0x05 = 0xD62C ∧ crcUpd 0xFFFF 0x00 = 0x0F87 ∧
  crcUpd 0xFFFF 0xFF = 0x00FF ∧ crcUpd 0x0000 0x00 = 0x0000 ∧ crcUpd 0x0000 0x01 = 0x1189 ∧
  crcUpd 0x0000 0xFF = 0x0F78 ∧ crcUpd 0x1234 0xAB = 0x6C6C ∧ crcOf [] = 0xFFFF ∧
  crcOf [0x31, 0x32, 0x33, 0x34, 0x35, 0x36, 0x37, 0x38, 0x39] = 0x6F91 ∧
  crcOf [0x1B, 0x05, 0x00, 0x04, 0x00, 0x00, 0x00, 0x0E, 0x21, 0x43, 0x65, 0x87] = 0xC3C2 ∧
  crcOf [0x05, 0x00, 0x04, 0x00, 0x00, 0x00, 0x0E, 0x21, 0x43, 0x65, 0x87] = 0x3412

/-- R192: the table form equals eight bit-serial steps of `c xor zext_16(b)`. -/
def Obligations.TableCrcEqualsBitSerialCrc : Prop :=
  ∀ (c : Half) (b : Byte),
    crcUpd c b =
      (fun x : Half => if x.getLsbD 0 then (x >>> 1) ^^^ 0x8408 else x >>> 1)^[8] (c ^^^ b.setWidth 16)

/-- R194: accumulating the two CRC bytes, low byte first, ends at zero; and for any value of the running CRC no other
pair of bytes does. -/
def Obligations.CrcResidueIsZeroForItsOwnBytesOnly : Prop :=
  (∀ m : List Byte, crcOf (m ++ [(crcOf m).extractLsb' 0 8, (crcOf m).extractLsb' 8 8]) = 0) ∧
  ∀ (c : Half) (b0 b1 : Byte),
    crcUpd (crcUpd c b0) b1 = 0 ↔ b0 = c.extractLsb' 0 8 ∧ b1 = c.extractLsb' 8 8

/-- R196. -/
def Obligations.CrcUpdateIsLinearOverXor : Prop :=
  (∀ (c1 c2 : Half) (b1 b2 : Byte), crcUpd (c1 ^^^ c2) (b1 ^^^ b2) = crcUpd c1 b1 ^^^ crcUpd c2 b2) ∧
  crcUpd 0 0 = 0

/-! ## Whole frames (41_east_framer.md, 42_icemkii_framer.md) -/

/-- R72: bytes that are not the start token, put between frames, are skipped one by one; nothing changes but `OK`. -/
def Obligations.NoiseBetweenFramesIsSkipped : Prop :=
  ∀ (s : State) (bs : List Byte), s.Inv → s.mode = .input → s.complete = false → s.index = 0 → bs ≠ [] →
    (s.variant = .east → (∀ b ∈ bs, b ≠ 0x24) →
      execAll (bs.map .eastPutbyte) s = some (List.replicate bs.length inProgressResponse,
        { s with ok := false, response := inProgressResponse, txc := false, rxc := false })) ∧
    (s.variant = .icemkii → (∀ b ∈ bs, b ≠ 0x1B) →
      execAll (bs.map .icePutbyte) s = some (List.replicate bs.length inProgressResponse,
        { s with ok := false, response := inProgressResponse, txc := false, rxc := false }))

/-- An EAST frame (R71, R74) put between frames into a buffer that holds its payload is parsed: every byte but the last
answers `InProgress`, the last `Complete`; the payload is in the window, in order, and nothing else of memory changed;
`ACTSIZE` is its length. -/
def Obligations.EastFrameIsParsed : Prop :=
  ∀ (s : State) (p : List Byte), s.Inv → s.variant = .east → s.mode = .input → s.complete = false → s.index = 0 →
    1 ≤ p.length → p.length ≤ s.maxsize.toNat →
    ∃ t, execAll ((eastFrame p).map .eastPutbyte) s = some (parsedResponses (p.length + 6), t) ∧
      t.complete = true ∧ t.ok = true ∧ t.index = 0 ∧ t.actsize.toNat = p.length ∧ t.chk = eastChecksum p ∧
      t.window s.bufptr.toNat p.length = p ∧
      (∀ a, a < s.bufptr.toNat ∨ s.bufptr.toNat + p.length ≤ a → t.mem.read a = s.mem.read a)

/-- An EAST frame whose trailer is not its checksum is dropped without a word: every byte answers `InProgress`, the
instance is between frames again, and the payload bytes stay in the buffer (R125, R65). -/
def Obligations.EastFrameWithWrongChecksumIsDropped : Prop :=
  ∀ (s : State) (p : List Byte) (c : Half), s.Inv → s.variant = .east → s.mode = .input → s.complete = false →
    s.index = 0 → 1 ≤ p.length → p.length ≤ s.maxsize.toNat → c ≠ eastChecksum p →
    ∃ t, execAll ((eastFrameWith c p).map .eastPutbyte) s =
        some (List.replicate (p.length + 6) inProgressResponse, t) ∧
      t.index = 0 ∧ t.actsize = 0 ∧ t.ok = false ∧ t.complete = false ∧ t.mode = .input ∧
      t.window s.bufptr.toNat p.length = p

/-- An EAST instance bound for output produces the frame of the window's contents, `Complete` and `TXC` with the last
byte, and leaves the memory as it was (R126, R71, R74). A byte of the window that nothing has written counts as
`Config.unwrittenByte` of its address, whatever that is (log 7). -/
def Obligations.EastFrameIsProduced : Prop :=
  ∀ s : State, s.Inv → s.variant = .east → s.mode = .output → s.complete = false → s.index = 0 →
    ∃ t, execAll (List.replicate (s.actsize.toNat + 6) .eastGetbyte) s =
        some (sentResponses (eastFrame (s.window s.bufptr.toNat s.actsize.toNat)), t) ∧
      t.complete = true ∧ t.txc = true ∧ t.index = 0 ∧ t.mem = s.mem

/-- R128, the round trip: what instance `a` sends after `EAST.SETBUF out, pa, n`, put into instance `b` after
`EAST.SETBUF in, pb, m` with `m >= n`, leaves `a`'s window in `b`'s buffer, and `b` reports the size `n`. -/
def Obligations.EastRoundTripReproducesThePayload : Prop :=
  ∀ (a b : State) (pa pb : Addr) (n m : Word), a.Inv → b.Inv → a.variant = .east → b.variant = .east →
    1 ≤ n.toNat → n.toNat ≤ 65535 → m.toNat ≤ 65535 → n.toNat ≤ m.toNat →
    pa.toNat + n.toNat ≤ 2 ^ 32 → pb.toNat + m.toNat ≤ 2 ^ 32 →
    ∃ a1 a2 b1 b2 frame,
      exec (.eastSetbuf .output pa n) a = .next a1 ∧ exec (.eastSetbuf .input pb m) b = .next b1 ∧
      frame.length = n.toNat + 6 ∧
      execAll (List.replicate (n.toNat + 6) .eastGetbyte) a1 = some (sentResponses frame, a2) ∧
      execAll (frame.map .eastPutbyte) b1 = some (parsedResponses (n.toNat + 6), b2) ∧
      b2.window pb.toNat n.toNat = a.window pa.toNat n.toNat ∧
      ∃ b3, exec .eastGetsize b2 = .next b3 ∧ b3.response = some ⟨.inProgress, 0, n⟩

/-- R129, resynchronisation: a frame with a wrong checksum, whatever its two checksum bytes are, is consumed whole and
leaves `INDEX` 0; a well-formed frame that follows at once completes. -/
def Obligations.EastResynchronisesAfterAWrongChecksum : Prop :=
  ∀ (s : State) (p q : List Byte) (c : Half), s.Inv → s.variant = .east → s.mode = .input → s.complete = false →
    s.index = 0 → 1 ≤ p.length → p.length ≤ s.maxsize.toNat → c ≠ eastChecksum p →
    1 ≤ q.length → q.length ≤ s.maxsize.toNat →
    ∃ u t, execAll ((eastFrameWith c p).map .eastPutbyte) s =
        some (List.replicate (p.length + 6) inProgressResponse, u) ∧ u.index = 0 ∧
      execAll ((eastFrame q).map .eastPutbyte) u = some (parsedResponses (q.length + 6), t) ∧
      t.complete = true ∧ t.ok = true ∧ t.actsize.toNat = q.length ∧ t.window s.bufptr.toNat q.length = q

/-- An ICEMKII frame (R73, R75) put between frames into a buffer that holds its payload is parsed, and its sequence
number is in `SEQ`. -/
def Obligations.IceFrameIsParsed : Prop :=
  ∀ (s : State) (q : Half) (p : List Byte), s.Inv → s.variant = .icemkii → s.mode = .input → s.complete = false →
    s.index = 0 → 1 ≤ p.length → p.length ≤ s.maxsize.toNat →
    ∃ t, execAll ((iceFrame q p).map .icePutbyte) s = some (parsedResponses (p.length + 10), t) ∧
      t.complete = true ∧ t.ok = true ∧ t.index = 0 ∧ t.actsize.toNat = p.length ∧ t.seq = q ∧
      t.chk = crcOf (iceCovered q p) ∧ t.window s.bufptr.toNat p.length = p ∧
      (∀ a, a < s.bufptr.toNat ∨ s.bufptr.toNat + p.length ≤ a → t.mem.read a = s.mem.read a)

/-- An ICEMKII frame whose trailer is not its CRC is dropped without a word, and the next frame is looked for at once;
its body stays in the buffer (R155, R65). -/
def Obligations.IceFrameWithWrongCrcIsDropped : Prop :=
  ∀ (s : State) (q : Half) (p : List Byte) (c : Half), s.Inv → s.variant = .icemkii → s.mode = .input →
    s.complete = false → s.index = 0 → 1 ≤ p.length → p.length ≤ s.maxsize.toNat → c ≠ crcOf (iceCovered q p) →
    ∃ t, execAll ((iceFrameWith c q p).map .icePutbyte) s =
        some (List.replicate (p.length + 10) inProgressResponse, t) ∧
      t.index = 0 ∧ t.actsize = 0 ∧ t.ok = false ∧ t.complete = false ∧ t.mode = .input ∧
      t.window s.bufptr.toNat p.length = p

/-- An ICEMKII instance bound for output produces the frame of `SEQ` and the window's contents (R156, R73, R75). A
byte of the window that nothing has written counts as `Config.unwrittenByte` of its address, whatever that is (log
7). -/
def Obligations.IceFrameIsProduced : Prop :=
  ∀ s : State, s.Inv → s.variant = .icemkii → s.mode = .output → s.complete = false → s.index = 0 →
    ∃ t, execAll (List.replicate (s.actsize.toNat + 10) .iceGetbyte) s =
        some (sentResponses (iceFrame s.seq (s.window s.bufptr.toNat s.actsize.toNat)), t) ∧
      t.complete = true ∧ t.txc = true ∧ t.index = 0 ∧ t.seq = s.seq ∧ t.mem = s.mem

/-- R159, the round trip: the payload and the sequence number arrive. -/
def Obligations.IceRoundTripReproducesPayloadAndSequence : Prop :=
  ∀ (a b : State) (pa pb : Addr) (n m : Word), a.Inv → b.Inv → a.variant = .icemkii → b.variant = .icemkii →
    1 ≤ n.toNat → n.toNat ≤ 0xFFFFFFF5 → m.toNat ≤ 0xFFFFFFF5 → n.toNat ≤ m.toNat →
    pa.toNat + n.toNat ≤ 2 ^ 32 → pb.toNat + m.toNat ≤ 2 ^ 32 →
    ∃ a1 a2 b1 b2 frame,
      exec (.iceSetbuf .output pa n) a = .next a1 ∧ exec (.iceSetbuf .input pb m) b = .next b1 ∧
      frame.length = n.toNat + 10 ∧
      execAll (List.replicate (n.toNat + 10) .iceGetbyte) a1 = some (sentResponses frame, a2) ∧
      execAll (frame.map .icePutbyte) b1 = some (parsedResponses (n.toNat + 10), b2) ∧
      b2.window pb.toNat n.toNat = a.window pa.toNat n.toNat ∧ b2.seq = a.seq ∧
      ∃ b3, exec .iceGetsize b2 = .next b3 ∧ b3.response = some ⟨.inProgress, 0, n⟩

/-- R158, the vector of the source, on any binding of at least four bytes; the same prefix with trailer `FF FF` does
not complete; with fewer than four bytes both are dropped at the seventh byte. -/
def Obligations.SourceCrcVectorDecodes : Prop :=
  ∀ s : State, s.Inv → s.variant = .icemkii → s.mode = .input → s.complete = false → s.index = 0 →
    let head : List Byte := [0x1B, 0x05, 0x00, 0x04, 0x00, 0x00, 0x00]
    let rest : List Byte := [0x0E, 0x21, 0x43, 0x65, 0x87]
    (4 ≤ s.maxsize.toNat →
      (∃ t, execAll ((head ++ rest ++ [0xC2, 0xC3]).map .icePutbyte) s = some (parsedResponses 14, t) ∧
        t.ok = true ∧ t.complete = true) ∧
      ∃ t, execAll ((head ++ rest ++ [0xFF, 0xFF]).map .icePutbyte) s =
          some (List.replicate 14 inProgressResponse, t) ∧
        t.ok = false ∧ t.index = 0 ∧ t.actsize = 0 ∧ t.complete = false) ∧
    (s.maxsize.toNat < 4 →
      ∃ t, execAll (head.map .icePutbyte) s = some (List.replicate 7 inProgressResponse, t) ∧
        t.ok = false ∧ t.index = 0 ∧ t.actsize = 0 ∧ t.complete = false)
end

