-- ==== Sys2Proof/Laws/Encode.lean ====
section
/-! SUPPORT. A command word carries its ports whole: packing and unpacking agree, word and bytes. -/

namespace Sys2Proof

/-- Unpacking a packed command gives its ports back, every bit of every port. -/
theorem Ports.ofWord_toWord (p : Ports) : Ports.ofWord p.toWord = p := by
  obtain ⟨op, mode, ptr, size, value, seq⟩ := p
  simp only [Ports.ofWord, Ports.toWord, Ports.mk.injEq]
  refine ⟨?_, ?_, ?_, ?_, ?_, ?_⟩ <;> ext i hi <;>
    simp only [BitVec.getElem_extractLsb', BitVec.getLsbD_append, Config.addrW] at * <;>
    rw [← BitVec.getLsbD_eq_getElem]
  · rw [if_pos (by omega)]; congr 1; omega
  · rw [if_neg (by omega), if_pos (by omega)]; congr 1; omega
  · have hi' : i < 32 := hi
    rw [if_neg (by omega), if_neg (by omega), if_pos (show 4 + i - 3 - 1 < 32 by omega)]; congr 1; omega
  · rw [if_neg (by omega), if_neg (by omega), if_neg (by omega), if_pos (by omega)]; congr 1; omega
  · rw [if_neg (by omega), if_neg (by omega), if_neg (by omega), if_neg (by omega), if_pos (by omega)]
    congr 1; omega
  · rw [if_neg (by omega), if_neg (by omega), if_neg (by omega), if_neg (by omega), if_neg (by omega)]
    congr 1; omega

theorem littleEndian_bytesOf (n w : Nat) (h : w < 256 ^ n) : littleEndian (bytesOf n w) = w := by
  induction n generalizing w with
  | zero => simp at h; simp [bytesOf, littleEndian, h]
  | succ n ih =>
    rw [bytesOf, littleEndian, ih (w / 256) (by rw [Nat.div_lt_iff_lt_mul (by decide)]; rwa [pow_succ] at h),
      BitVec.toNat_ofNat]
    omega

theorem bytesOf_length (n w : Nat) : (bytesOf n w).length = n := by
  induction n generalizing w with
  | zero => rfl
  | succ n ih => rw [bytesOf, List.length_cons, ih]

theorem Mode.ofBit_toBit (m : Mode) : Mode.ofBit m.toBit = m := by cases m <;> rfl

end Sys2Proof
end

