-- ==== Sys2Proof/Laws/State.lean ====
section
/-! SUPPORT. One lemma per field for each of the shared state updates, so that no proof unfolds a record update, and
the responses written through `answer`; the constants of each variant. -/

namespace Sys2Proof.Machine

@[simp] theorem hdr_east : Config.hdr .east = 3 := rfl
@[simp] theorem hdr_icemkii : Config.hdr .icemkii = 8 := rfl
@[simp] theorem ovh_east : Config.ovh .east = 6 := rfl
@[simp] theorem ovh_icemkii : Config.ovh .icemkii = 10 := rfl
@[simp] theorem limit_east : Config.limit .east = 65535 := rfl
@[simp] theorem limit_icemkii : Config.limit .icemkii = 0xFFFFFFF5 := rfl

@[simp] theorem respond_eq (st : Status) (s : State) : respond st s = answer ⟨st, 0, 0⟩ false false s := rfl
@[simp] theorem respondByte_eq (b : Byte) (s : State) :
    respondByte b s = answer ⟨.inProgress, b, 0⟩ false false s := rfl
@[simp] theorem respondSize_eq (n : Word) (s : State) :
    respondSize n s = answer ⟨.inProgress, 0, n⟩ false false s := rfl
@[simp] theorem refuse_eq (c : RefuseCause) (s : State) : refuse c s = answer ⟨.error, 0, 0⟩ false false s := rfl
@[simp] theorem accept_eq (s : State) : accept s = answer ⟨.inProgress, 0, 0⟩ false false (advance s) := rfl
@[simp] theorem emit_eq (b : Byte) (s : State) :
    emit b s = answer ⟨.inProgress, b, 0⟩ false false (advance s) := rfl
@[simp] theorem acceptLast_eq (s : State) :
    acceptLast s = answer ⟨.complete, 0, 0⟩ false true (completeFrame s) := rfl
@[simp] theorem emitLast_eq (b : Byte) (s : State) :
    emitLast b s = answer ⟨.complete, b, 0⟩ true false (completeFrame s) := rfl
@[simp] theorem iceEmit_eq (b : Byte) (s : State) :
    iceEmit b s = emit b { s with chk := crcUpd s.chk b } := rfl

@[simp] theorem answer_variant (r : Response) (x y : Bool) (s : State) : (answer r x y s).variant = s.variant := rfl
@[simp] theorem answer_bufptr (r : Response) (x y : Bool) (s : State) : (answer r x y s).bufptr = s.bufptr := rfl
@[simp] theorem answer_maxsize (r : Response) (x y : Bool) (s : State) : (answer r x y s).maxsize = s.maxsize := rfl
@[simp] theorem answer_actsize (r : Response) (x y : Bool) (s : State) : (answer r x y s).actsize = s.actsize := rfl
@[simp] theorem answer_index (r : Response) (x y : Bool) (s : State) : (answer r x y s).index = s.index := rfl
@[simp] theorem answer_chk (r : Response) (x y : Bool) (s : State) : (answer r x y s).chk = s.chk := rfl
@[simp] theorem answer_seq (r : Response) (x y : Bool) (s : State) : (answer r x y s).seq = s.seq := rfl
@[simp] theorem answer_rxl (r : Response) (x y : Bool) (s : State) : (answer r x y s).rxl = s.rxl := rfl
@[simp] theorem answer_ok (r : Response) (x y : Bool) (s : State) : (answer r x y s).ok = s.ok := rfl
@[simp] theorem answer_complete (r : Response) (x y : Bool) (s : State) : (answer r x y s).complete = s.complete := rfl
@[simp] theorem answer_mode (r : Response) (x y : Bool) (s : State) : (answer r x y s).mode = s.mode := rfl
@[simp] theorem answer_mem (r : Response) (x y : Bool) (s : State) : (answer r x y s).mem = s.mem := rfl
@[simp] theorem answer_response (r : Response) (x y : Bool) (s : State) : (answer r x y s).response = some r := rfl
@[simp] theorem answer_txc (r : Response) (x y : Bool) (s : State) : (answer r x y s).txc = x := rfl
@[simp] theorem answer_rxc (r : Response) (x y : Bool) (s : State) : (answer r x y s).rxc = y := rfl
@[simp] theorem answer_inbox (r : Response) (x y : Bool) (s : State) : (answer r x y s).inbox = s.inbox := rfl

@[simp] theorem malformed_variant (c : MalformCause) (s : State) : (malformed c s).variant = s.variant := rfl
@[simp] theorem malformed_bufptr (c : MalformCause) (s : State) : (malformed c s).bufptr = s.bufptr := rfl
@[simp] theorem malformed_maxsize (c : MalformCause) (s : State) : (malformed c s).maxsize = s.maxsize := rfl
@[simp] theorem malformed_actsize (c : MalformCause) (s : State) : (malformed c s).actsize = 0 := rfl
@[simp] theorem malformed_index (c : MalformCause) (s : State) : (malformed c s).index = 0 := rfl
@[simp] theorem malformed_chk (c : MalformCause) (s : State) : (malformed c s).chk = s.chk := rfl
@[simp] theorem malformed_seq (c : MalformCause) (s : State) : (malformed c s).seq = s.seq := rfl
@[simp] theorem malformed_rxl (c : MalformCause) (s : State) : (malformed c s).rxl = s.rxl := rfl
@[simp] theorem malformed_ok (c : MalformCause) (s : State) : (malformed c s).ok = false := rfl
@[simp] theorem malformed_complete (c : MalformCause) (s : State) : (malformed c s).complete = s.complete := rfl
@[simp] theorem malformed_mode (c : MalformCause) (s : State) : (malformed c s).mode = s.mode := rfl
@[simp] theorem malformed_mem (c : MalformCause) (s : State) : (malformed c s).mem = s.mem := rfl
@[simp] theorem malformed_response (c : MalformCause) (s : State) :
    (malformed c s).response = some ⟨.inProgress, 0, 0⟩ := rfl
@[simp] theorem malformed_txc (c : MalformCause) (s : State) : (malformed c s).txc = false := rfl
@[simp] theorem malformed_rxc (c : MalformCause) (s : State) : (malformed c s).rxc = false := rfl
@[simp] theorem malformed_inbox (c : MalformCause) (s : State) : (malformed c s).inbox = s.inbox := rfl

@[simp] theorem advance_variant (s : State) : (advance s).variant = s.variant := rfl
@[simp] theorem advance_bufptr (s : State) : (advance s).bufptr = s.bufptr := rfl
@[simp] theorem advance_maxsize (s : State) : (advance s).maxsize = s.maxsize := rfl
@[simp] theorem advance_actsize (s : State) : (advance s).actsize = s.actsize := rfl
@[simp] theorem advance_index (s : State) : (advance s).index = s.index + 1 := rfl
@[simp] theorem advance_chk (s : State) : (advance s).chk = s.chk := rfl
@[simp] theorem advance_seq (s : State) : (advance s).seq = s.seq := rfl
@[simp] theorem advance_rxl (s : State) : (advance s).rxl = s.rxl := rfl
@[simp] theorem advance_ok (s : State) : (advance s).ok = s.ok := rfl
@[simp] theorem advance_complete (s : State) : (advance s).complete = s.complete := rfl
@[simp] theorem advance_mode (s : State) : (advance s).mode = s.mode := rfl
@[simp] theorem advance_mem (s : State) : (advance s).mem = s.mem := rfl
@[simp] theorem advance_response (s : State) : (advance s).response = s.response := rfl
@[simp] theorem advance_txc (s : State) : (advance s).txc = s.txc := rfl
@[simp] theorem advance_rxc (s : State) : (advance s).rxc = s.rxc := rfl
@[simp] theorem advance_inbox (s : State) : (advance s).inbox = s.inbox := rfl

@[simp] theorem completeFrame_variant (s : State) : (completeFrame s).variant = s.variant := rfl
@[simp] theorem completeFrame_bufptr (s : State) : (completeFrame s).bufptr = s.bufptr := rfl
@[simp] theorem completeFrame_maxsize (s : State) : (completeFrame s).maxsize = s.maxsize := rfl
@[simp] theorem completeFrame_actsize (s : State) : (completeFrame s).actsize = s.actsize := rfl
@[simp] theorem completeFrame_index (s : State) : (completeFrame s).index = 0 := rfl
@[simp] theorem completeFrame_chk (s : State) : (completeFrame s).chk = s.chk := rfl
@[simp] theorem completeFrame_seq (s : State) : (completeFrame s).seq = s.seq := rfl
@[simp] theorem completeFrame_rxl (s : State) : (completeFrame s).rxl = s.rxl := rfl
@[simp] theorem completeFrame_ok (s : State) : (completeFrame s).ok = s.ok := rfl
@[simp] theorem completeFrame_complete (s : State) : (completeFrame s).complete = true := rfl
@[simp] theorem completeFrame_mode (s : State) : (completeFrame s).mode = s.mode := rfl
@[simp] theorem completeFrame_mem (s : State) : (completeFrame s).mem = s.mem := rfl
@[simp] theorem completeFrame_response (s : State) : (completeFrame s).response = s.response := rfl
@[simp] theorem completeFrame_txc (s : State) : (completeFrame s).txc = s.txc := rfl
@[simp] theorem completeFrame_rxc (s : State) : (completeFrame s).rxc = s.rxc := rfl
@[simp] theorem completeFrame_inbox (s : State) : (completeFrame s).inbox = s.inbox := rfl

@[simp] theorem storeByte_variant (a : Nat) (b : Byte) (s : State) : (s.storeByte a b).variant = s.variant := rfl
@[simp] theorem storeByte_bufptr (a : Nat) (b : Byte) (s : State) : (s.storeByte a b).bufptr = s.bufptr := rfl
@[simp] theorem storeByte_maxsize (a : Nat) (b : Byte) (s : State) : (s.storeByte a b).maxsize = s.maxsize := rfl
@[simp] theorem storeByte_actsize (a : Nat) (b : Byte) (s : State) : (s.storeByte a b).actsize = s.actsize := rfl
@[simp] theorem storeByte_index (a : Nat) (b : Byte) (s : State) : (s.storeByte a b).index = s.index := rfl
@[simp] theorem storeByte_chk (a : Nat) (b : Byte) (s : State) : (s.storeByte a b).chk = s.chk := rfl
@[simp] theorem storeByte_seq (a : Nat) (b : Byte) (s : State) : (s.storeByte a b).seq = s.seq := rfl
@[simp] theorem storeByte_rxl (a : Nat) (b : Byte) (s : State) : (s.storeByte a b).rxl = s.rxl := rfl
@[simp] theorem storeByte_ok (a : Nat) (b : Byte) (s : State) : (s.storeByte a b).ok = s.ok := rfl
@[simp] theorem storeByte_complete (a : Nat) (b : Byte) (s : State) : (s.storeByte a b).complete = s.complete := rfl
@[simp] theorem storeByte_mode (a : Nat) (b : Byte) (s : State) : (s.storeByte a b).mode = s.mode := rfl
@[simp] theorem storeByte_mem (a : Nat) (b : Byte) (s : State) : (s.storeByte a b).mem = s.mem.write a b := rfl
@[simp] theorem storeByte_response (a : Nat) (b : Byte) (s : State) : (s.storeByte a b).response = s.response := rfl
@[simp] theorem storeByte_txc (a : Nat) (b : Byte) (s : State) : (s.storeByte a b).txc = s.txc := rfl
@[simp] theorem storeByte_rxc (a : Nat) (b : Byte) (s : State) : (s.storeByte a b).rxc = s.rxc := rfl
@[simp] theorem storeByte_inbox (a : Nat) (b : Byte) (s : State) : (s.storeByte a b).inbox = s.inbox := rfl

@[simp] theorem bindBuffer_variant (m : Mode) (p : Addr) (n : Word) (s : State) :
    (bindBuffer m p n s).variant = s.variant := rfl
@[simp] theorem bindBuffer_bufptr (m : Mode) (p : Addr) (n : Word) (s : State) : (bindBuffer m p n s).bufptr = p := rfl
@[simp] theorem bindBuffer_maxsize (m : Mode) (p : Addr) (n : Word) (s : State) :
    (bindBuffer m p n s).maxsize = n := rfl
@[simp] theorem bindBuffer_actsize (m : Mode) (p : Addr) (n : Word) (s : State) :
    (bindBuffer m p n s).actsize = if m = .output then n else 0 := rfl
@[simp] theorem bindBuffer_index (m : Mode) (p : Addr) (n : Word) (s : State) : (bindBuffer m p n s).index = 0 := rfl
@[simp] theorem bindBuffer_chk (m : Mode) (p : Addr) (n : Word) (s : State) : (bindBuffer m p n s).chk = 0 := rfl
@[simp] theorem bindBuffer_seq (m : Mode) (p : Addr) (n : Word) (s : State) : (bindBuffer m p n s).seq = s.seq := rfl
@[simp] theorem bindBuffer_rxl (m : Mode) (p : Addr) (n : Word) (s : State) : (bindBuffer m p n s).rxl = 0 := rfl
@[simp] theorem bindBuffer_ok (m : Mode) (p : Addr) (n : Word) (s : State) : (bindBuffer m p n s).ok = false := rfl
@[simp] theorem bindBuffer_complete (m : Mode) (p : Addr) (n : Word) (s : State) :
    (bindBuffer m p n s).complete = false := rfl
@[simp] theorem bindBuffer_mode (m : Mode) (p : Addr) (n : Word) (s : State) : (bindBuffer m p n s).mode = m := rfl
@[simp] theorem bindBuffer_mem (m : Mode) (p : Addr) (n : Word) (s : State) : (bindBuffer m p n s).mem = s.mem := rfl
@[simp] theorem bindBuffer_response (m : Mode) (p : Addr) (n : Word) (s : State) :
    (bindBuffer m p n s).response = some ⟨.inProgress, 0, 0⟩ := rfl
@[simp] theorem bindBuffer_txc (m : Mode) (p : Addr) (n : Word) (s : State) : (bindBuffer m p n s).txc = false := rfl
@[simp] theorem bindBuffer_rxc (m : Mode) (p : Addr) (n : Word) (s : State) : (bindBuffer m p n s).rxc = false := rfl
@[simp] theorem bindBuffer_inbox (m : Mode) (p : Addr) (n : Word) (s : State) :
    (bindBuffer m p n s).inbox = s.inbox := rfl

@[simp] theorem hardwareReset_variant (s : State) : (hardwareReset s).variant = s.variant := rfl
@[simp] theorem hardwareReset_bufptr (s : State) : (hardwareReset s).bufptr = 0 := rfl
@[simp] theorem hardwareReset_maxsize (s : State) : (hardwareReset s).maxsize = 0 := rfl
@[simp] theorem hardwareReset_actsize (s : State) : (hardwareReset s).actsize = 0 := rfl
@[simp] theorem hardwareReset_index (s : State) : (hardwareReset s).index = 0 := rfl
@[simp] theorem hardwareReset_chk (s : State) : (hardwareReset s).chk = 0 := rfl
@[simp] theorem hardwareReset_seq (s : State) : (hardwareReset s).seq = 0 := rfl
@[simp] theorem hardwareReset_rxl (s : State) : (hardwareReset s).rxl = 0 := rfl
@[simp] theorem hardwareReset_ok (s : State) : (hardwareReset s).ok = false := rfl
@[simp] theorem hardwareReset_complete (s : State) : (hardwareReset s).complete = false := rfl
@[simp] theorem hardwareReset_mode (s : State) : (hardwareReset s).mode = .input := rfl
@[simp] theorem hardwareReset_mem (s : State) : (hardwareReset s).mem = s.mem := rfl
@[simp] theorem hardwareReset_response (s : State) : (hardwareReset s).response = none := rfl
@[simp] theorem hardwareReset_txc (s : State) : (hardwareReset s).txc = false := rfl
@[simp] theorem hardwareReset_rxc (s : State) : (hardwareReset s).rxc = false := rfl
@[simp] theorem hardwareReset_inbox (s : State) : (hardwareReset s).inbox = s.inbox := rfl

@[simp] theorem callerWrite_variant (a : Addr) (b : Byte) (s : State) : (callerWrite a b s).variant = s.variant := rfl
@[simp] theorem callerWrite_bufptr (a : Addr) (b : Byte) (s : State) : (callerWrite a b s).bufptr = s.bufptr := rfl
@[simp] theorem callerWrite_maxsize (a : Addr) (b : Byte) (s : State) : (callerWrite a b s).maxsize = s.maxsize := rfl
@[simp] theorem callerWrite_actsize (a : Addr) (b : Byte) (s : State) : (callerWrite a b s).actsize = s.actsize := rfl
@[simp] theorem callerWrite_index (a : Addr) (b : Byte) (s : State) : (callerWrite a b s).index = s.index := rfl
@[simp] theorem callerWrite_chk (a : Addr) (b : Byte) (s : State) : (callerWrite a b s).chk = s.chk := rfl
@[simp] theorem callerWrite_seq (a : Addr) (b : Byte) (s : State) : (callerWrite a b s).seq = s.seq := rfl
@[simp] theorem callerWrite_rxl (a : Addr) (b : Byte) (s : State) : (callerWrite a b s).rxl = s.rxl := rfl
@[simp] theorem callerWrite_ok (a : Addr) (b : Byte) (s : State) : (callerWrite a b s).ok = s.ok := rfl
@[simp] theorem callerWrite_complete (a : Addr) (b : Byte) (s : State) :
    (callerWrite a b s).complete = s.complete := rfl
@[simp] theorem callerWrite_mode (a : Addr) (b : Byte) (s : State) : (callerWrite a b s).mode = s.mode := rfl
@[simp] theorem callerWrite_mem (a : Addr) (b : Byte) (s : State) :
    (callerWrite a b s).mem = s.mem.write a.toNat b := rfl
@[simp] theorem callerWrite_response (a : Addr) (b : Byte) (s : State) : (callerWrite a b s).response = none := rfl
@[simp] theorem callerWrite_txc (a : Addr) (b : Byte) (s : State) : (callerWrite a b s).txc = false := rfl
@[simp] theorem callerWrite_rxc (a : Addr) (b : Byte) (s : State) : (callerWrite a b s).rxc = false := rfl
@[simp] theorem callerWrite_inbox (a : Addr) (b : Byte) (s : State) : (callerWrite a b s).inbox = s.inbox := rfl

@[simp] theorem presentCommand_variant (p : Ports) (s : State) : (presentCommand p s).variant = s.variant := rfl
@[simp] theorem presentCommand_bufptr (p : Ports) (s : State) : (presentCommand p s).bufptr = s.bufptr := rfl
@[simp] theorem presentCommand_maxsize (p : Ports) (s : State) : (presentCommand p s).maxsize = s.maxsize := rfl
@[simp] theorem presentCommand_actsize (p : Ports) (s : State) : (presentCommand p s).actsize = s.actsize := rfl
@[simp] theorem presentCommand_index (p : Ports) (s : State) : (presentCommand p s).index = s.index := rfl
@[simp] theorem presentCommand_chk (p : Ports) (s : State) : (presentCommand p s).chk = s.chk := rfl
@[simp] theorem presentCommand_seq (p : Ports) (s : State) : (presentCommand p s).seq = s.seq := rfl
@[simp] theorem presentCommand_rxl (p : Ports) (s : State) : (presentCommand p s).rxl = s.rxl := rfl
@[simp] theorem presentCommand_ok (p : Ports) (s : State) : (presentCommand p s).ok = s.ok := rfl
@[simp] theorem presentCommand_complete (p : Ports) (s : State) : (presentCommand p s).complete = s.complete := rfl
@[simp] theorem presentCommand_mode (p : Ports) (s : State) : (presentCommand p s).mode = s.mode := rfl
@[simp] theorem presentCommand_mem (p : Ports) (s : State) : (presentCommand p s).mem = s.mem := rfl
@[simp] theorem presentCommand_response (p : Ports) (s : State) : (presentCommand p s).response = s.response := rfl
@[simp] theorem presentCommand_txc (p : Ports) (s : State) : (presentCommand p s).txc = s.txc := rfl
@[simp] theorem presentCommand_rxc (p : Ports) (s : State) : (presentCommand p s).rxc = s.rxc := rfl
@[simp] theorem presentCommand_inbox (p : Ports) (s : State) :
    (presentCommand p s).inbox = .command p :: s.inbox := rfl

end Sys2Proof.Machine
end

