-- ==== Sys2Proof/Laws/Fields.lean ====
section
/-! SUPPORT. The byte fields of registers, in bits and in numbers (R77 of 30_encoding.md). -/

namespace Sys2Proof.Machine

theorem setByte_getLsbD {w : Nat} (x : BitVec w) (j : Nat) (v : Byte) (i : Nat) :
    (setByte x j v).getLsbD i =
      if 8 * j ≤ i ∧ i < 8 * j + 8 then (decide (i < w) && v.getLsbD (i - 8 * j)) else x.getLsbD i := by
  have hFF : ∀ k, (0xFF : Byte).getLsbD k = decide (k < 8) := by
    intro k
    rcases Nat.lt_or_ge k 8 with h | h
    · interval_cases k <;> rfl
    · rw [BitVec.getLsbD_of_ge _ _ h, decide_eq_false (by omega)]
  simp only [setByte, BitVec.getLsbD_or, BitVec.getLsbD_and, BitVec.getLsbD_not, BitVec.getLsbD_shiftLeft,
    BitVec.getLsbD_setWidth, hFF]
  rcases Nat.lt_or_ge i w with hw | hw
  · rcases Nat.lt_or_ge i (8 * j) with h | h
    · rw [if_neg (by omega)]; simp [h, hw]
    · rcases Nat.lt_or_ge i (8 * j + 8) with h' | h'
      · rw [if_pos ⟨h, h'⟩]
        have : i - 8 * j < 8 := by omega
        have hn : ¬i < 8 * j := by omega
        have hd : i - 8 * j < w := by omega
        simp [hw, hn, this, hd]
      · rw [if_neg (by omega)]
        have : ¬(i - 8 * j < 8) := by omega
        have hz : v.getLsbD (i - 8 * j) = false := BitVec.getLsbD_of_ge _ _ (by omega)
        simp [hw, this, hz]
  · rw [BitVec.getLsbD_of_ge x i hw]
    simp [Nat.not_lt.2 hw]

/-- Writing byte `j` and reading it back. -/
theorem byteOf_setByte_self {w : Nat} (x : BitVec w) {j : Nat} (v : Byte) (h : 8 * j + 8 ≤ w) :
    byteOf (setByte x j v) j = v := by
  apply BitVec.eq_of_getLsbD_eq
  intro i hi
  have h1 : 8 * j + i < w := by omega
  have h2 : 8 * j ≤ 8 * j + i ∧ 8 * j + i < 8 * j + 8 := by omega
  rw [byteOf, BitVec.getLsbD_extractLsb', setByte_getLsbD, if_pos h2]
  simp [hi, h1]

/-- Writing byte `j` leaves every other byte alone. -/
theorem byteOf_setByte_of_ne {w : Nat} (x : BitVec w) {j k : Nat} (v : Byte) (h : k ≠ j) :
    byteOf (setByte x j v) k = byteOf x k := by
  apply BitVec.eq_of_getLsbD_eq
  intro i hi
  have h2 : ¬(8 * j ≤ 8 * k + i ∧ 8 * k + i < 8 * j + 8) := by omega
  rw [byteOf, byteOf, BitVec.getLsbD_extractLsb', BitVec.getLsbD_extractLsb', setByte_getLsbD, if_neg h2]

theorem byteOf_toNat {w : Nat} (x : BitVec w) (j : Nat) : (byteOf x j).toNat = x.toNat / 256 ^ j % 256 := by
  rw [byteOf, BitVec.extractLsb'_toNat, Nat.shiftRight_eq_div_pow, Nat.pow_mul]

/-- The declared length of an EAST header, as a number. -/
theorem eastLength_toNat (a : Word) (v : Byte) : (eastLength a v).toNat = a.toNat % 256 + 256 * v.toNat := by
  have h : a.toNat % 256 < 2 ^ 8 := by omega
  have hv : v.toNat < 2 ^ 8 := v.isLt
  simp only [eastLength, BitVec.toNat_or, BitVec.toNat_shiftLeft, BitVec.toNat_setWidth, BitVec.extractLsb'_toNat,
    Nat.shiftRight_zero, Nat.shiftLeft_eq]
  rw [Nat.mod_eq_of_lt (show v.toNat < 2 ^ 32 by omega), Nat.mod_eq_of_lt (show v.toNat * 2 ^ 8 < 2 ^ 32 by omega),
    Nat.mod_eq_of_lt (show a.toNat % 2 ^ 8 < 2 ^ 32 by omega), Nat.or_comm,
    show v.toNat * 2 ^ 8 = 2 ^ 8 * v.toNat by omega, ← Nat.two_pow_add_eq_or_of_lt (by omega)]
  omega

/-- The declared length of an ICEMKII header, as a number. -/
theorem iceLength_toNat (a : Word) (v : Byte) :
    (iceLength a v).toNat = a.toNat % 2 ^ 24 + 2 ^ 24 * v.toNat := by
  have h : a.toNat % 2 ^ 24 < 2 ^ 24 := by omega
  have hv : v.toNat < 2 ^ 8 := v.isLt
  simp only [iceLength, BitVec.toNat_or, BitVec.toNat_shiftLeft, BitVec.toNat_setWidth, BitVec.extractLsb'_toNat,
    Nat.shiftRight_zero, Nat.shiftLeft_eq]
  rw [Nat.mod_eq_of_lt (show v.toNat < 2 ^ 32 by omega), Nat.mod_eq_of_lt (show v.toNat * 2 ^ 24 < 2 ^ 32 by omega),
    Nat.mod_eq_of_lt (show a.toNat % 2 ^ 24 < 2 ^ 32 by omega), Nat.or_comm,
    show v.toNat * 2 ^ 24 = 2 ^ 24 * v.toNat by omega, ← Nat.two_pow_add_eq_or_of_lt (by omega)]
  omega

/-- The received check value, as a number. -/
theorem receivedCheck_toNat (v rxl : Byte) : (receivedCheck v rxl).toNat = v.toNat * 256 + rxl.toNat := by
  have hv : v.toNat < 2 ^ 8 := v.isLt
  have hr : rxl.toNat < 2 ^ 8 := rxl.isLt
  simp only [receivedCheck, BitVec.toNat_or, BitVec.toNat_shiftLeft, BitVec.toNat_setWidth, Nat.shiftLeft_eq]
  rw [Nat.mod_eq_of_lt (show v.toNat < 2 ^ 16 by omega), Nat.mod_eq_of_lt (show v.toNat * 2 ^ 8 < 2 ^ 16 by omega),
    Nat.mod_eq_of_lt (show rxl.toNat < 2 ^ 16 by omega),
    show v.toNat * 2 ^ 8 = 2 ^ 8 * v.toNat by omega, ← Nat.two_pow_add_eq_or_of_lt (by omega)]
  omega

end Sys2Proof.Machine
end

