-- ==== Sys2Proof/Laws/Memory.lean ====
section
/-! SUPPORT. The laws of buffer memory (R52 of 20_memory.md): what a read gives after a write, and that a write keeps
the canonical form. -/

namespace Sys2Proof.Machine

@[simp] theorem Memory.read_nil (a : Nat) : Memory.read [] a = none := rfl

theorem Memory.read_cons (c : Host.Cell) (m : Memory) (a : Nat) :
    Memory.read (c :: m) a = if c.1 = a then some c.2 else Memory.read m a := rfl

theorem Memory.write_cons (c : Host.Cell) (m : Memory) (a : Nat) (b : Byte) :
    Memory.write (c :: m) a b =
      if a < c.1 then (a, b) :: c :: m else if a = c.1 then (a, b) :: m else c :: Memory.write m a b := rfl

/-- The byte just written is the byte read. -/
@[simp] theorem Memory.read_write_same (m : Memory) (a : Nat) (b : Byte) : (m.write a b).read a = some b := by
  induction m with
  | nil => simp [Memory.write, Memory.read]
  | cons c m ih =>
    rw [Memory.write_cons]
    split_ifs with h1 h2
    · simp [Memory.read_cons]
    · simp [Memory.read_cons]
    · rw [Memory.read_cons, if_neg (Ne.symm h2), ih]

/-- A write leaves every other address as it was. -/
theorem Memory.read_write_other (m : Memory) {a a' : Nat} (b : Byte) (h : a' ≠ a) :
    (m.write a b).read a' = m.read a' := by
  induction m with
  | nil => simp [Memory.write, Memory.read, h.symm]
  | cons c m ih =>
    rw [Memory.write_cons]
    split_ifs with h1 h2
    · rw [Memory.read_cons, if_neg h.symm]
    · rw [Memory.read_cons, if_neg h.symm, Memory.read_cons, if_neg (h2 ▸ h.symm)]
    · rw [Memory.read_cons, Memory.read_cons, ih]

theorem Memory.read_write (m : Memory) (a a' : Nat) (b : Byte) :
    (m.write a b).read a' = if a' = a then some b else m.read a' := by
  split_ifs with h
  · rw [h, Memory.read_write_same]
  · exact Memory.read_write_other m b h

/-- The canonical form, read at the head: everything after the head has a higher address. -/
theorem Memory.wf_cons_iff (c : Host.Cell) (m : Memory) :
    Memory.wf (c :: m) = true ↔ c.1 < Config.addrSpace ∧ Memory.wf m = true ∧ ∀ d ∈ m.head?, c.1 < d.1 := by
  cases m with
  | nil => simp [Memory.wf]
  | cons d m =>
    simp only [Memory.wf, Bool.and_eq_true, decide_eq_true_eq, List.head?_cons, Option.mem_some_iff,
      forall_eq']
    constructor
    · rintro ⟨h1, h2⟩
      refine ⟨?_, h2, h1⟩
      have : d.1 < Config.addrSpace := by
        clear h1
        induction m generalizing d with
        | nil => simpa [Memory.wf] using h2
        | cons e m ih =>
          simp only [Memory.wf, Bool.and_eq_true, decide_eq_true_eq] at h2
          exact lt_trans h2.1 (ih e h2.2)
      exact lt_trans h1 this
    · rintro ⟨-, h2, h1⟩
      exact ⟨h1, h2⟩

theorem Memory.head_write (m : Memory) (a : Nat) (b : Byte) (d : Host.Cell) (h : d ∈ (m.write a b).head?) :
    d.1 = a ∨ d ∈ m.head? := by
  cases m with
  | nil => simp [Memory.write] at h; exact .inl (by rw [← h])
  | cons c m =>
    rw [Memory.write_cons] at h
    split_ifs at h with h1 h2
    · simp at h; exact .inl (by rw [← h])
    · simp at h; exact .inl (by rw [← h])
    · exact .inr h

/-- A write inside the address space keeps the canonical form. -/
theorem Memory.wf_write (m : Memory) {a : Nat} (b : Byte) (hm : m.wf = true) (ha : a < Config.addrSpace) :
    (m.write a b).wf = true := by
  induction m with
  | nil => simpa [Memory.write, Memory.wf] using ha
  | cons c m ih =>
    have hc := (Memory.wf_cons_iff c m).1 hm
    rw [Memory.write_cons]
    split_ifs with h1 h2
    · rw [Memory.wf_cons_iff]
      refine ⟨ha, hm, fun d hd => ?_⟩
      simp only [List.head?_cons, Option.mem_some_iff] at hd
      rw [← hd]; exact h1
    · rw [Memory.wf_cons_iff]
      exact ⟨ha, hc.2.1, fun d hd => h2 ▸ hc.2.2 d hd⟩
    · rw [Memory.wf_cons_iff]
      refine ⟨hc.1, ih hc.2.1, fun d hd => ?_⟩
      rcases Memory.head_write m a b d hd with h | h
      · omega
      · exact hc.2.2 d h

theorem Memory.read_below_head {c : Host.Cell} {m : Memory} (h : Memory.wf (c :: m) = true) {a : Nat} (ha : a < c.1) :
    Memory.read (c :: m) a = none := by
  induction m generalizing c with
  | nil => rw [Memory.read_cons, if_neg (by omega)]; rfl
  | cons d m ih =>
    have hc := (Memory.wf_cons_iff c (d :: m)).1 h
    have hd : c.1 < d.1 := hc.2.2 d rfl
    rw [Memory.read_cons, if_neg (by omega), ih hc.2.1 (by omega)]

/-- Two memories in canonical form that read the same at every address are the same data. -/
theorem Memory.eq_of_read {m n : Memory} (hm : m.wf = true) (hn : n.wf = true) (h : ∀ a, m.read a = n.read a) :
    m = n := by
  induction m generalizing n with
  | nil =>
    cases n with
    | nil => rfl
    | cons d n => have := h d.1; simp [Memory.read_cons] at this
  | cons c m ih =>
    cases n with
    | nil => have := h c.1; simp [Memory.read_cons] at this
    | cons d n =>
      have hcd : c.1 = d.1 := by
        rcases Nat.lt_trichotomy c.1 d.1 with hl | he | hg
        · have := h c.1
          rw [Memory.read_below_head hn hl, Memory.read_cons, if_pos rfl] at this; cases this
        · exact he
        · have := h d.1
          rw [Memory.read_below_head hm hg, Memory.read_cons, if_pos rfl] at this; cases this
      have hv : c.2 = d.2 := by
        have := h c.1
        rw [Memory.read_cons, if_pos rfl, Memory.read_cons, if_pos hcd.symm] at this
        exact Option.some.inj this
      have hcw := (Memory.wf_cons_iff c m).1 hm
      have hdw := (Memory.wf_cons_iff d n).1 hn
      have htail : m = n := by
        refine ih hcw.2.1 hdw.2.1 fun a => ?_
        have out : ∀ {e : Host.Cell} {l : Memory}, Memory.wf (e :: l) = true → Memory.read l e.1 = none := by
          intro e l hl
          have hw := (Memory.wf_cons_iff e l).1 hl
          cases l with
          | nil => rfl
          | cons f l => exact Memory.read_below_head hw.2.1 (hw.2.2 f rfl)
        by_cases ha : a = c.1
        · rw [ha, out hm, hcd, out hn]
        · have := h a
          rwa [Memory.read_cons, if_neg (Ne.symm ha), Memory.read_cons, if_neg
              (by rw [← hcd]; exact Ne.symm ha)] at this
      rw [htail, Prod.ext hcd hv]

/-- The reset memory has the canonical form. -/
theorem Memory.wf_reset (v : Variant) : (State.resetOf v).mem.wf = true := rfl

/-- `MemRead` after a write. -/
theorem byteAt_storeByte (s : State) (a a' : Nat) (b : Byte) :
    (s.storeByte a b).byteAt a' = if a' = a then b else s.byteAt a' := by
  simp only [State.byteAt, State.storeByte, Memory.read_write]
  split_ifs <;> rfl

end Sys2Proof.Machine
end

