-- ==== Sys2Proof/Laws/Ops.lean ====
section
/-! SUPPORT. For each shared operation and each meaning, once, everything it can do. -/

namespace Sys2Proof.Machine

/-! ## Checks -/

theorem putCheck_eq_none (s : State) : putCheck s = none ↔ s.mode = .input ∧ s.complete = false := by
  unfold putCheck
  split_ifs with h1 h2 <;> simp_all

theorem getCheck_eq_none (s : State) : getCheck s = none ↔ s.mode = .output ∧ s.complete = false := by
  unfold getCheck
  split_ifs with h1 h2 <;> simp_all

theorem setBuffer_of_refused {v : Variant} {m : Mode} {p : Addr} {n : Word} (h : refusedOperands v m p n)
    (s : State) :
    setBuffer v m p n s = refuse .operandNotAccepted s := by
  have hc : setbufCheck v m p n = some .operandNotAccepted := if_pos h
  rw [setBuffer, hc]

theorem setBuffer_of_accepted {v : Variant} {m : Mode} {p : Addr} {n : Word} (h : ¬refusedOperands v m p n)
    (s : State) : setBuffer v m p n s = bindBuffer m p n s := by
  have hc : setbufCheck v m p n = none := if_neg h
  rw [setBuffer, hc]

/-- What `SetBuffer` can do: refuse with no effect, or bind. -/
theorem setBuffer_cases (v : Variant) (m : Mode) (p : Addr) (n : Word) (s : State) :
    (refusedOperands v m p n ∧ setBuffer v m p n s = answer ⟨.error, 0, 0⟩ false false s) ∨
    (¬refusedOperands v m p n ∧ setBuffer v m p n s = bindBuffer m p n s) := by
  by_cases h : refusedOperands v m p n
  · exact .inl ⟨h, setBuffer_of_refused h s⟩
  · exact .inr ⟨h, setBuffer_of_accepted h s⟩

theorem onVariant_eq_next {v : Variant} {s t : State} {r : Result} :
    onVariant v s r = .next t ↔ s.variant = v ∧ r = .next t := by
  unfold onVariant
  split_ifs with h <;> simp [h]

theorem onVariant_self {v : Variant} {s : State} (h : s.variant = v) (r : Result) : onVariant v s r = r := if_pos h

theorem atPayload_eq_next {s t : State} {k : Nat} {f : Nat → Result} :
    atPayload s k f = .next t ↔ payloadAddr s k < Config.addrSpace ∧ f (payloadAddr s k) = .next t := by
  unfold atPayload
  split_ifs with h <;> simp [h]

theorem atPayload_inside {s : State} {k : Nat} (h : payloadAddr s k < Config.addrSpace) (f : Nat → Result) :
    atPayload s k f = f (payloadAddr s k) := if_pos h

/-- Two payload accesses at one address, with answers that agree after the same change to their states. -/
theorem atPayload_mapState (g : State → State) {s s' : State} {k : Nat} {f f' : Nat → Result}
    (h : payloadAddr s k = payloadAddr s' k) (hf : ∀ a, Result.mapState g (f a) = Result.mapState g (f' a)) :
    Result.mapState g (atPayload s k f) = Result.mapState g (atPayload s' k f') := by
  unfold atPayload
  rw [h]
  split_ifs
  · exact hf _
  · rfl

/-! ## Stages (R101) -/

theorem eastStage_header {i : Nat} (h : i < 3) (n : Nat) : eastStage i n = eastHeader i := if_pos h

theorem eastStage_data {i n : Nat} (h : 3 ≤ i) (h' : i < n + 3) : eastStage i n = some (.data (i - 3)) := by
  rw [eastStage, if_neg (Nat.not_lt.2 h), if_pos h']

theorem eastStage_trailer (j n : Nat) : eastStage (n + 3 + j) n = eastTrailer j := by
  rw [eastStage, if_neg (by simp only [Config.eastHdr]; omega), if_neg (by simp only [Config.eastHdr]; omega),
    Nat.add_sub_cancel_left]

theorem iceStage_header {i : Nat} (h : i < 8) (n : Nat) : iceStage i n = iceHeader i := if_pos h

theorem iceStage_data {i n : Nat} (h : 8 ≤ i) (h' : i < n + 8) : iceStage i n = some (.data (i - 8)) := by
  rw [iceStage, if_neg (Nat.not_lt.2 h), if_pos h']

theorem iceStage_trailer (j n : Nat) : iceStage (n + 8 + j) n = iceTrailer j := by
  rw [iceStage, if_neg (by simp only [Config.iceHdr]; omega), if_neg (by simp only [Config.iceHdr]; omega),
    Nat.add_sub_cancel_left]

/-- Every index is in the header, at a payload byte, or `j` bytes into the trailer. -/
theorem eastIndex_cases (i n : Nat) : i < 3 ∨ (3 ≤ i ∧ i < n + 3) ∨ ∃ j, i = n + 3 + j := by
  rcases Nat.lt_or_ge i 3 with h | h
  · exact .inl h
  · rcases Nat.lt_or_ge i (n + 3) with h' | h'
    · exact .inr (.inl ⟨h, h'⟩)
    · exact .inr (.inr ⟨i - (n + 3), by omega⟩)

/-- Every index is in the header, at a payload byte, or `j` bytes into the trailer. -/
theorem iceIndex_cases (i n : Nat) : i < 8 ∨ (8 ≤ i ∧ i < n + 8) ∨ ∃ j, i = n + 8 + j := by
  rcases Nat.lt_or_ge i 8 with h | h
  · exact .inl h
  · rcases Nat.lt_or_ge i (n + 8) with h' | h'
    · exact .inr (.inl ⟨h, h'⟩)
    · exact .inr (.inr ⟨i - (n + 8), by omega⟩)

/-- Where an EAST stage stands: the stage table read backwards. -/
def eastStageAt (i n : Nat) : EastStage → Prop
  | .start => i = 0
  | .len0 => i = 1
  | .len1 => i = 2
  | .data k => i = k + 3 ∧ k < n
  | .stop => i = n + 3
  | .chk0 => i = n + 4
  | .chk1 => i = n + 5

/-- Where an ICEMKII stage stands: the stage table read backwards. -/
def iceStageAt (i n : Nat) : IceStage → Prop
  | .start => i = 0
  | .seq0 => i = 1
  | .seq1 => i = 2
  | .len0 => i = 3
  | .len1 => i = 4
  | .len2 => i = 5
  | .len3 => i = 6
  | .token => i = 7
  | .data k => i = k + 8 ∧ k < n
  | .chk0 => i = n + 8
  | .chk1 => i = n + 9

theorem eastStage_at {i n : Nat} {st : EastStage} (h : eastStage i n = some st) : eastStageAt i n st := by
  rcases eastIndex_cases i n with hi | ⟨h1, h2⟩ | ⟨j, rfl⟩
  · rw [eastStage_header hi] at h
    match i, hi, h with
    | 0, _, h => cases h; rfl
    | 1, _, h => cases h; rfl
    | 2, _, h => cases h; rfl
  · rw [eastStage_data h1 h2] at h
    cases h
    exact ⟨by omega, by omega⟩
  · rw [eastStage_trailer] at h
    match j, h with
    | 0, h => cases h; rfl
    | 1, h => cases h; rfl
    | 2, h => cases h; rfl

theorem iceStage_at {i n : Nat} {st : IceStage} (h : iceStage i n = some st) : iceStageAt i n st := by
  rcases iceIndex_cases i n with hi | ⟨h1, h2⟩ | ⟨j, rfl⟩
  · rw [iceStage_header hi] at h
    match i, hi, h with
    | 0, _, h => cases h; rfl
    | 1, _, h => cases h; rfl
    | 2, _, h => cases h; rfl
    | 3, _, h => cases h; rfl
    | 4, _, h => cases h; rfl
    | 5, _, h => cases h; rfl
    | 6, _, h => cases h; rfl
    | 7, _, h => cases h; rfl
  · rw [iceStage_data h1 h2] at h
    cases h
    exact ⟨by omega, by omega⟩
  · rw [iceStage_trailer] at h
    match j, h with
    | 0, h => cases h; rfl
    | 1, h => cases h; rfl

theorem eastStage_some {i n : Nat} (h : i ≤ 2 ∨ i ≤ n + 5) : ∃ st, eastStage i n = some st := by
  rcases eastIndex_cases i n with hi | ⟨h1, h2⟩ | ⟨j, rfl⟩
  · rw [eastStage_header hi]
    match i, hi with
    | 0, _ => exact ⟨_, rfl⟩
    | 1, _ => exact ⟨_, rfl⟩
    | 2, _ => exact ⟨_, rfl⟩
  · exact ⟨_, eastStage_data h1 h2⟩
  · rw [eastStage_trailer]
    match j, (show j ≤ 2 by omega) with
    | 0, _ => exact ⟨_, rfl⟩
    | 1, _ => exact ⟨_, rfl⟩
    | 2, _ => exact ⟨_, rfl⟩

theorem iceStage_some {i n : Nat} (h : i ≤ 7 ∨ i ≤ n + 9) : ∃ st, iceStage i n = some st := by
  rcases iceIndex_cases i n with hi | ⟨h1, h2⟩ | ⟨j, rfl⟩
  · rw [iceStage_header hi]
    match i, hi with
    | 0, _ => exact ⟨_, rfl⟩
    | 1, _ => exact ⟨_, rfl⟩
    | 2, _ => exact ⟨_, rfl⟩
    | 3, _ => exact ⟨_, rfl⟩
    | 4, _ => exact ⟨_, rfl⟩
    | 5, _ => exact ⟨_, rfl⟩
    | 6, _ => exact ⟨_, rfl⟩
    | 7, _ => exact ⟨_, rfl⟩
  · exact ⟨_, iceStage_data h1 h2⟩
  · rw [iceStage_trailer]
    match j, (show j ≤ 1 by omega) with
    | 0, _ => exact ⟨_, rfl⟩
    | 1, _ => exact ⟨_, rfl⟩

/-! ## Meanings -/

/-- What `EAST.PUTBYTE` can do. -/
theorem execEastPutbyte_cases {v : Byte} {s t : State} (h : execEastPutbyte v s = .next t) :
    s.variant = .east ∧
    (((s.mode = .output ∨ s.complete = true) ∧ t = answer ⟨.error, 0, 0⟩ false false s) ∨
      (s.mode = .input ∧ s.complete = false ∧
        ∃ st, eastStage s.index.toNat s.actsize.toNat = some st ∧ eastPutStage st v s = .next t)) := by
  obtain ⟨hv, h⟩ := onVariant_eq_next.1 h
  refine ⟨hv, ?_⟩
  cases hc : putCheck s with
  | none =>
    rw [hc] at h
    cases hst : eastStage s.index.toNat s.actsize.toNat with
    | none => rw [hst] at h; cases h
    | some st =>
      rw [hst] at h
      have := (putCheck_eq_none s).1 hc
      exact .inr ⟨this.1, this.2, st, rfl, h⟩
  | some why =>
    rw [hc] at h
    refine .inl ⟨?_, (Host.Outcome.next.inj h).symm⟩
    have : ¬(s.mode = .input ∧ s.complete = false) := by rw [← putCheck_eq_none, hc]; simp
    cases hm : s.mode <;> simp_all

/-- What `EAST.GETBYTE` can do. -/
theorem execEastGetbyte_cases {s t : State} (h : execEastGetbyte s = .next t) :
    s.variant = .east ∧
    (((s.mode = .input ∨ s.complete = true) ∧ t = answer ⟨.error, 0, 0⟩ false false s) ∨
      (s.mode = .output ∧ s.complete = false ∧
        ∃ st, eastStage s.index.toNat s.actsize.toNat = some st ∧ eastGetStage st s = .next t)) := by
  obtain ⟨hv, h⟩ := onVariant_eq_next.1 h
  refine ⟨hv, ?_⟩
  cases hc : getCheck s with
  | none =>
    rw [hc] at h
    cases hst : eastStage s.index.toNat s.actsize.toNat with
    | none => rw [hst] at h; cases h
    | some st =>
      rw [hst] at h
      have := (getCheck_eq_none s).1 hc
      exact .inr ⟨this.1, this.2, st, rfl, h⟩
  | some why =>
    rw [hc] at h
    refine .inl ⟨?_, (Host.Outcome.next.inj h).symm⟩
    have : ¬(s.mode = .output ∧ s.complete = false) := by rw [← getCheck_eq_none, hc]; simp
    cases hm : s.mode <;> simp_all

/-- What `ICE.PUTBYTE` can do. -/
theorem execIcePutbyte_cases {v : Byte} {s t : State} (h : execIcePutbyte v s = .next t) :
    s.variant = .icemkii ∧
    (((s.mode = .output ∨ s.complete = true) ∧ t = answer ⟨.error, 0, 0⟩ false false s) ∨
      (s.mode = .input ∧ s.complete = false ∧
        ∃ st, iceStage s.index.toNat s.actsize.toNat = some st ∧ icePutStage st v s = .next t)) := by
  obtain ⟨hv, h⟩ := onVariant_eq_next.1 h
  refine ⟨hv, ?_⟩
  cases hc : putCheck s with
  | none =>
    rw [hc] at h
    cases hst : iceStage s.index.toNat s.actsize.toNat with
    | none => rw [hst] at h; cases h
    | some st =>
      rw [hst] at h
      have := (putCheck_eq_none s).1 hc
      exact .inr ⟨this.1, this.2, st, rfl, h⟩
  | some why =>
    rw [hc] at h
    refine .inl ⟨?_, (Host.Outcome.next.inj h).symm⟩
    have : ¬(s.mode = .input ∧ s.complete = false) := by rw [← putCheck_eq_none, hc]; simp
    cases hm : s.mode <;> simp_all

/-- What `ICE.GETBYTE` can do. -/
theorem execIceGetbyte_cases {s t : State} (h : execIceGetbyte s = .next t) :
    s.variant = .icemkii ∧
    (((s.mode = .input ∨ s.complete = true) ∧ t = answer ⟨.error, 0, 0⟩ false false s) ∨
      (s.mode = .output ∧ s.complete = false ∧
        ∃ st, iceStage s.index.toNat s.actsize.toNat = some st ∧ iceGetStage st s = .next t)) := by
  obtain ⟨hv, h⟩ := onVariant_eq_next.1 h
  refine ⟨hv, ?_⟩
  cases hc : getCheck s with
  | none =>
    rw [hc] at h
    cases hst : iceStage s.index.toNat s.actsize.toNat with
    | none => rw [hst] at h; cases h
    | some st =>
      rw [hst] at h
      have := (getCheck_eq_none s).1 hc
      exact .inr ⟨this.1, this.2, st, rfl, h⟩
  | some why =>
    rw [hc] at h
    refine .inl ⟨?_, (Host.Outcome.next.inj h).symm⟩
    have : ¬(s.mode = .output ∧ s.complete = false) := by rw [← getCheck_eq_none, hc]; simp
    cases hm : s.mode <;> simp_all

/-- `PUTBYTE` and `GETBYTE` in the mode that accepts them run their stage. -/
theorem execEastPutbyte_stage {v : Byte} {s : State} {st : EastStage} (hv : s.variant = .east) (hm : s.mode = .input)
    (hc : s.complete = false) (hst : eastStage s.index.toNat s.actsize.toNat = some st) :
    execEastPutbyte v s = eastPutStage st v s := by
  rw [execEastPutbyte, onVariant_self hv, (putCheck_eq_none s).2 ⟨hm, hc⟩, hst]

theorem execEastGetbyte_stage {s : State} {st : EastStage} (hv : s.variant = .east) (hm : s.mode = .output)
    (hc : s.complete = false) (hst : eastStage s.index.toNat s.actsize.toNat = some st) :
    execEastGetbyte s = eastGetStage st s := by
  rw [execEastGetbyte, onVariant_self hv, (getCheck_eq_none s).2 ⟨hm, hc⟩, hst]

theorem execIcePutbyte_stage {v : Byte} {s : State} {st : IceStage} (hv : s.variant = .icemkii) (hm : s.mode = .input)
    (hc : s.complete = false) (hst : iceStage s.index.toNat s.actsize.toNat = some st) :
    execIcePutbyte v s = icePutStage st v s := by
  rw [execIcePutbyte, onVariant_self hv, (putCheck_eq_none s).2 ⟨hm, hc⟩, hst]

theorem execIceGetbyte_stage {s : State} {st : IceStage} (hv : s.variant = .icemkii) (hm : s.mode = .output)
    (hc : s.complete = false) (hst : iceStage s.index.toNat s.actsize.toNat = some st) :
    execIceGetbyte s = iceGetStage st s := by
  rw [execIceGetbyte, onVariant_self hv, (getCheck_eq_none s).2 ⟨hm, hc⟩, hst]

/-- `PUTBYTE` in the wrong mode, or after `Complete`, is refused. -/
theorem execEastPutbyte_refused {v : Byte} {s : State} (hv : s.variant = .east)
    (h : s.mode = .output ∨ s.complete = true) :
    execEastPutbyte v s = .next (answer ⟨.error, 0, 0⟩ false false s) := by
  rw [execEastPutbyte, onVariant_self hv]
  cases hp : putCheck s with
  | none => have := (putCheck_eq_none s).1 hp; simp_all
  | some why => rfl

theorem execIcePutbyte_refused {v : Byte} {s : State} (hv : s.variant = .icemkii)
    (h : s.mode = .output ∨ s.complete = true) :
    execIcePutbyte v s = .next (answer ⟨.error, 0, 0⟩ false false s) := by
  rw [execIcePutbyte, onVariant_self hv]
  cases hp : putCheck s with
  | none => have := (putCheck_eq_none s).1 hp; simp_all
  | some why => rfl

/-- `GETBYTE` in the wrong mode, or after `Complete`, is refused. -/
theorem execEastGetbyte_refused {s : State} (hv : s.variant = .east) (h : s.mode = .input ∨ s.complete = true) :
    execEastGetbyte s = .next (answer ⟨.error, 0, 0⟩ false false s) := by
  rw [execEastGetbyte, onVariant_self hv]
  cases hp : getCheck s with
  | none => have := (getCheck_eq_none s).1 hp; simp_all
  | some why => rfl

theorem execIceGetbyte_refused {s : State} (hv : s.variant = .icemkii) (h : s.mode = .input ∨ s.complete = true) :
    execIceGetbyte s = .next (answer ⟨.error, 0, 0⟩ false false s) := by
  rw [execIceGetbyte, onVariant_self hv]
  cases hp : getCheck s with
  | none => have := (getCheck_eq_none s).1 hp; simp_all
  | some why => rfl

end Sys2Proof.Machine
end

