-- ==== Sys2Proof/Laws/Step.lean ====
section
/-! SUPPORT. What a step can do, once: execute an operation, reset, or let a memory write land. -/

namespace Sys2Proof.Machine

/-- The state in which the operation that a step executes is met: the caller's move has been taken. -/
def State.taken (s : State) : State := { s with inbox := s.inbox.tail }

@[simp] theorem taken_variant (s : State) : s.taken.variant = s.variant := rfl
@[simp] theorem taken_bufptr (s : State) : s.taken.bufptr = s.bufptr := rfl
@[simp] theorem taken_maxsize (s : State) : s.taken.maxsize = s.maxsize := rfl
@[simp] theorem taken_actsize (s : State) : s.taken.actsize = s.actsize := rfl
@[simp] theorem taken_index (s : State) : s.taken.index = s.index := rfl
@[simp] theorem taken_chk (s : State) : s.taken.chk = s.chk := rfl
@[simp] theorem taken_seq (s : State) : s.taken.seq = s.seq := rfl
@[simp] theorem taken_rxl (s : State) : s.taken.rxl = s.rxl := rfl
@[simp] theorem taken_ok (s : State) : s.taken.ok = s.ok := rfl
@[simp] theorem taken_complete (s : State) : s.taken.complete = s.complete := rfl
@[simp] theorem taken_mode (s : State) : s.taken.mode = s.mode := rfl
@[simp] theorem taken_mem (s : State) : s.taken.mem = s.mem := rfl
@[simp] theorem taken_response (s : State) : s.taken.response = s.response := rfl
@[simp] theorem taken_txc (s : State) : s.taken.txc = s.txc := rfl
@[simp] theorem taken_rxc (s : State) : s.taken.rxc = s.rxc := rfl
@[simp] theorem taken_inbox (s : State) : s.taken.inbox = s.inbox.tail := rfl

/-- A step that executes the operation asked for is that operation's meaning. -/
theorem step_asked {s : State} {i : Instr} (h : s.asked = some i) : step s = exec i s.taken := by
  obtain ⟨variant, bufptr, maxsize, actsize, index, chk, seq, rxl, ok, complete, mode, mem, response, txc, rxc,
    inbox⟩ := s
  match inbox, h with
  | [], h => cases Option.some.inj h; rfl
  | .command p :: later, h => cases Option.some.inj h; rfl

theorem step_rst {s : State} (h : s.resetting) : step s = .next (hardwareReset s.taken) := by
  obtain ⟨variant, bufptr, maxsize, actsize, index, chk, seq, rxl, ok, complete, mode, mem, response, txc, rxc,
    inbox⟩ := s
  match inbox, h with
  | .rst :: later, _ => rfl

theorem step_memWrite {s : State} {a : Addr} {b : Byte} {later : List HostMove} (h : s.inbox = .memWrite a b :: later) :
    step s = .next (callerWrite a b s.taken) := by
  obtain ⟨variant, bufptr, maxsize, actsize, index, chk, seq, rxl, ok, complete, mode, mem, response, txc, rxc,
    inbox⟩ := s
  cases h; rfl

/-- Everything a step can be. -/
theorem step_kinds (s : State) :
    (∃ i, s.asked = some i ∧ i.wf s.variant = true ∧ step s = exec i s.taken) ∨
    (s.resetting ∧ s.asked = none ∧ step s = .next (hardwareReset s.taken)) ∨
    (∃ a b later, s.inbox = .memWrite a b :: later ∧ s.asked = none ∧ step s = .next (callerWrite a b s.taken)) := by
  have wf : ∀ (v : Variant) (p : Ports), (decode v p).wf v = true := by
    intro v p
    unfold decode
    split <;> rfl
  rcases hin : s.inbox with _ | ⟨mv, later⟩
  · have h : s.asked = some (decode s.variant Ports.idle) := by rw [State.asked, hin]
    exact .inl ⟨_, h, wf _ _, step_asked h⟩
  · cases mv with
    | command p =>
      have h : s.asked = some (decode s.variant p) := by rw [State.asked, hin]
      exact .inl ⟨_, h, wf _ _, step_asked h⟩
    | rst =>
      have h : s.resetting := by rw [State.resetting, hin]; rfl
      exact .inr (.inl ⟨h, by rw [State.asked, hin], step_rst h⟩)
    | memWrite a b => exact .inr (.inr ⟨a, b, later, rfl, by rw [State.asked, hin], step_memWrite hin⟩)

end Sys2Proof.Machine
end

