-- ==== Sys2Proof/Laws/Inv.lean ====
section
/-! SUPPORT. The invariant `State.Inv`: what follows from it about `INDEX` and addresses, and that each shape of state
change keeps it. -/

namespace Sys2Proof.Machine

/-- `INDEX` never reaches the top of its register, so `INDEX + 1` never wraps. -/
theorem State.Inv.index_lt {s : State} (h : s.Inv) : s.index.toNat + 1 < 2 ^ 32 := by
  have h1 := h.indexBound
  have h2 := h.sizeLimit
  have h3 : s.index.toNat ≤ Config.hdr s.variant - 1 ∨ s.actsize.toNat ≤ s.maxsize.toNat := by
    by_cases hh : Config.hdr s.variant ≤ s.index.toNat
    · right
      cases hm : s.mode with
      | input => exact (h.payloadLength hm hh).2
      | output => rw [(h.outputBinding hm).2.1]
    · left; omega
  revert h1 h2 h3
  cases s.variant <;> simp only [Config.hdr, Config.ovh, Config.limit, Config.eastHdr, Config.iceHdr,
      Config.eastOvh, Config.iceOvh, Config.eastLimit, Config.iceLimit] <;> omega

theorem State.Inv.index_succ {s : State} (h : s.Inv) : (s.index + 1).toNat = s.index.toNat + 1 := by
  have := h.index_lt
  rw [BitVec.toNat_add]; simp; omega

/-- The invariant does not look at `SEQ`, `RXL`, the outputs or the moves to come. -/
theorem State.Inv.of_eq {s t : State} (h : s.Inv) (e1 : t.variant = s.variant) (e2 : t.bufptr = s.bufptr)
    (e3 : t.maxsize = s.maxsize)
    (e4 : t.actsize = s.actsize) (e5 : t.index = s.index) (e6 : t.chk = s.chk) (e7 : t.ok = s.ok) (e8
       : t.complete = s.complete)
    (e9 : t.mode = s.mode) (e10 : t.mem = s.mem) : t.Inv := by
  obtain ⟨variant, bufptr, maxsize, actsize, index, chk, seq, rxl, ok, complete, mode, mem, response, txc, rxc,
      inbox⟩ := t
  obtain ⟨variant', bufptr', maxsize', actsize', index', chk', seq', rxl', ok', complete', mode', mem', response',
      txc', rxc', inbox'⟩ := s
  simp only at e1 e2 e3 e4 e5 e6 e7 e8 e9 e10
  subst e1 e2 e3 e4 e5 e6 e7 e8 e9 e10
  exact { h with }

/-- A parser that took a byte and goes on keeps the invariant. -/
theorem State.Inv.parsing {s t : State} (h : s.Inv) (hm : s.mode = .input) (e1 : t.variant = s.variant) (e2
    : t.bufptr = s.bufptr) (e3 : t.maxsize = s.maxsize)
    (e8 : t.complete = false) (e9 : t.mode = s.mode) (e5 : t.index = s.index + 1) (hok : t.ok = true)
    (hp : Config.hdr s.variant ≤ s.index.toNat + 1 → 1 ≤ t.actsize.toNat ∧ t.actsize.toNat ≤ s.maxsize.toNat)
    (hb : s.index.toNat + 1 ≤ Config.hdr s.variant - 1 ∨ s.index.toNat + 1 ≤ t.actsize.toNat + Config.ovh s.variant -
       1)
    (hc : s.variant = .east → t.chk.extractLsb' 8 8 = 0)
    (ht : s.variant = .icemkii → s.index.toNat + 1 = 7 → 1 ≤ t.actsize.toNat ∧ t.actsize.toNat ≤ s.maxsize.toNat)
    (hw : t.mem.wf = true) : t.Inv where
  idleLength := fun _ hi _ => by
    have := congrArg BitVec.toNat (e5 ▸ hi); rw [h.index_succ] at this; simp at this
  payloadLength := fun _ => by rw [e1, e3, e5, h.index_succ]; exact hp
  parsedFrame := fun _ hh => by rw [e8] at hh; cases hh
  outputBinding := fun hh => by rw [e9, hm] at hh; cases hh
  sentFrame := fun hh => by rw [e9, hm] at hh; cases hh
  frameOk := fun _ _ => hok
  indexBound := by rw [e1, e5, h.index_succ]; exact hb
  eastCheck := by rw [e1]; exact hc
  windowInMemory := by rw [e2, e3]; exact h.windowInMemory
  sizeLimit := by rw [e1, e3]; exact h.sizeLimit
  tokenLength := fun a _ c => by rw [e3]; rw [e5, h.index_succ] at c; exact ht (e1 ▸ a) c
  memoryForm := hw

/-- A serialiser that produced a byte keeps the invariant. -/
theorem State.Inv.sending {s t : State} (h : s.Inv) (hm : s.mode = .output) (e1 : t.variant = s.variant)
    (e2 : t.bufptr = s.bufptr) (e3 : t.maxsize = s.maxsize)
    (e4 : t.actsize = s.actsize) (e7 : t.ok = s.ok) (e9 : t.mode = s.mode) (e10 : t.mem = s.mem)
    (hcomp : t.complete = true → t.index = 0)
    (hb : t.index.toNat ≤ Config.hdr s.variant - 1 ∨ t.index.toNat ≤ s.actsize.toNat + Config.ovh s.variant - 1)
    (hc : s.variant = .east → t.chk.extractLsb' 8 8 = 0) : t.Inv where
  idleLength := fun hh => by rw [e9, hm] at hh; cases hh
  payloadLength := fun hh => by rw [e9, hm] at hh; cases hh
  parsedFrame := fun hh => by rw [e9, hm] at hh; cases hh
  outputBinding := fun _ => by rw [e1, e3, e4, e7]; exact h.outputBinding hm
  sentFrame := fun _ => hcomp
  frameOk := fun hh => by rw [e9, hm] at hh; cases hh
  indexBound := by rw [e1, e4]; exact hb
  eastCheck := by rw [e1]; exact hc
  windowInMemory := by rw [e2, e3]; exact h.windowInMemory
  sizeLimit := by rw [e1, e3]; exact h.sizeLimit
  tokenLength := fun _ hh => by rw [e9, hm] at hh; cases hh
  memoryForm := by rw [e10]; exact h.memoryForm

/-- Dropping a frame keeps the invariant. -/
theorem State.Inv.malformed {s : State} (h : s.Inv) (hm : s.mode = .input) (hc : s.complete = false) (c
    : MalformCause) : (malformed c s).Inv where
  idleLength := fun _ _ _ => rfl
  payloadLength := fun _ hh => by
    simp at hh; revert hh; cases s.variant <;> simp [Config.hdr]
  parsedFrame := fun _ hh => by simp [hc] at hh
  outputBinding := fun hh => by simp [hm] at hh
  sentFrame := fun hh => by simp [hm] at hh
  frameOk := fun _ hh => by simp at hh
  indexBound := by left; simp
  eastCheck := h.eastCheck
  windowInMemory := h.windowInMemory
  sizeLimit := h.sizeLimit
  tokenLength := fun _ _ hh => by simp at hh
  memoryForm := h.memoryForm

/-- Completing a received frame keeps the invariant. -/
theorem State.Inv.acceptLast {s : State} (h : s.Inv) (hm : s.mode = .input)  (hi
    : Config.hdr s.variant ≤ s.index.toNat) : (acceptLast s).Inv where
  idleLength := fun _ _ hh => by simp at hh
  payloadLength := fun _ hh => by
    simp at hh; revert hh; cases s.variant <;> simp [Config.hdr]
  parsedFrame := fun _ _ => ⟨rfl, h.frameOk hm (by revert hi; cases s.variant <;> simp [Config.hdr, Config.eastHdr,
      Config.iceHdr] <;> omega), h.payloadLength hm hi⟩
  outputBinding := fun hh => by simp [hm] at hh
  sentFrame := fun hh => by simp [hm] at hh
  frameOk := fun _ hh => by simp at hh
  indexBound := by left; simp
  eastCheck := h.eastCheck
  windowInMemory := h.windowInMemory
  sizeLimit := h.sizeLimit
  tokenLength := fun _ _ hh => by simp at hh
  memoryForm := h.memoryForm

/-- Past the header the payload length is known and fits the buffer. -/
theorem State.Inv.actsize_le {s : State} (h : s.Inv) (hh : Config.hdr s.variant ≤ s.index.toNat)
    : 1 ≤ s.actsize.toNat ∧ s.actsize.toNat ≤ s.maxsize.toNat := by
  cases hm : s.mode with
  | input => exact h.payloadLength hm hh
  | output => have := h.outputBinding hm; rw [← this.2.1]; exact ⟨this.1, le_refl _⟩

/-- Every payload address is inside the memory. -/
theorem State.Inv.payload_inside {s : State} (h : s.Inv) (hh : Config.hdr s.variant ≤ s.index.toNat) {k : Nat}
    (hk : k < s.actsize.toNat) : payloadAddr s k < Config.addrSpace := by
  have h1 := h.actsize_le hh
  have h2 := h.windowInMemory
  unfold payloadAddr; omega

/-- The EAST check value keeps its high byte 0 (R35 item 8). -/
theorem xorUpd_high (c : Half) (b : Byte) (h : c.extractLsb' 8 8 = 0) : (xorUpd c b).extractLsb' 8 8 = 0 := by
  ext i hi
  have := congrArg (fun x : BitVec 8 => x.getLsbD i) h
  simp [xorUpd, hi] at this ⊢
  rw [this]

/-- Every stage of `EAST.PUTBYTE` keeps the invariant. -/
theorem eastPutStage_inv {s t : State} {v : Byte} {st : EastStage} (h : s.Inv) (hv : s.variant = .east) (hm
    : s.mode = .input) (hc : s.complete = false)
    (hst : eastStageAt s.index.toNat s.actsize.toNat st) (e : eastPutStage st v s = .next t) : t.Inv := by
  have hh : Config.hdr s.variant = 3 := by rw [hv]; rfl
  have ho : Config.ovh s.variant = 6 := by rw [hv]; rfl
  have hok : 0 < s.index.toNat → s.ok = true := h.frameOk hm
  have hE := h.eastCheck hv
  have hP : 3 ≤ s.index.toNat → 1 ≤ s.actsize.toNat ∧ s.actsize.toNat ≤ s.maxsize.toNat := fun hh => h.payloadLength
      hm (by rw [hv]; exact hh)
  have hI : s.variant = .icemkii → False := by rw [hv]; simp
  cases st <;> simp only [eastPutStage, eastStageAt] at e hst
  case start =>
    split_ifs at e <;> cases e
    · exact h.parsing hm rfl rfl rfl hc rfl rfl rfl (by omega) (by omega) (fun _ => by simp) (fun x =>
        (hI x).elim) h.memoryForm
    · exact h.malformed hm hc _
  case len0 =>
    cases e
    exact h.parsing hm rfl rfl rfl hc rfl rfl (hok (by omega)) (by omega) (by omega) (fun _ => hE) (fun x =>
        (hI x).elim) h.memoryForm
  case len1 =>
    split_ifs at e with hl <;> cases e
    · simp only [lengthValid, decide_eq_true_eq] at hl
      exact h.parsing hm rfl rfl rfl hc rfl rfl (hok (by omega)) (fun _ => hl) (by right; simp; omega)
          (fun _ => hE) (fun x => (hI x).elim) h.memoryForm
    · exact h.malformed hm hc _
  case data k =>
    obtain ⟨ha, e⟩ := atPayload_eq_next.1 e
    cases e
    exact h.parsing hm rfl rfl rfl hc rfl rfl (hok (by omega)) (fun _ => hP (by omega)) (by right; simp; omega)
        (fun _ => xorUpd_high _ _ hE) (fun x => (hI x).elim) (Memory.wf_write _ _ h.memoryForm ha)
  case stop =>
    split_ifs at e <;> cases e
    · exact h.parsing hm rfl rfl rfl hc rfl rfl (hok (by omega)) (fun _ => hP (by omega)) (by right; simp; omega)
        (fun _ => hE) (fun x => (hI x).elim) h.memoryForm
    · exact h.malformed hm hc _
  case chk0 =>
    cases e
    exact h.parsing hm rfl rfl rfl hc rfl rfl (hok (by omega)) (fun _ => hP (by omega)) (by right; simp; omega)
        (fun _ => hE) (fun x => (hI x).elim) h.memoryForm
  case chk1 =>
    split_ifs at e <;> cases e
    · exact h.acceptLast hm (by omega)
    · exact h.malformed hm hc _

/-- Every stage of `ICE.PUTBYTE` keeps the invariant. -/
theorem icePutStage_inv {s t : State} {v : Byte} {st : IceStage} (h : s.Inv) (hv : s.variant = .icemkii)
    (hm : s.mode = .input) (hc : s.complete = false)
    (hst : iceStageAt s.index.toNat s.actsize.toNat st) (e : icePutStage st v s = .next t) : t.Inv := by
  have hh : Config.hdr s.variant = 8 := by rw [hv]; rfl
  have ho : Config.ovh s.variant = 10 := by rw [hv]; rfl
  have hok : 0 < s.index.toNat → s.ok = true := h.frameOk hm
  have hP : 8 ≤ s.index.toNat → 1 ≤ s.actsize.toNat ∧ s.actsize.toNat ≤ s.maxsize.toNat := fun hh => h.payloadLength
      hm (by rw [hv]; exact hh)
  have hT := h.tokenLength hv hm
  have hI : s.variant = .east → False := by rw [hv]; simp
  cases st <;> simp only [icePutStage, iceStageAt] at e hst
  case start =>
    split_ifs at e <;> cases e
    · exact h.parsing hm rfl rfl rfl hc rfl rfl rfl (by omega) (by omega)  (fun x => (hI x).elim)
        (by omega) h.memoryForm
    · exact h.malformed hm hc _
  case seq0 | seq1 | len0 | len1 | len2 =>
    cases e
    exact h.parsing hm rfl rfl rfl hc rfl rfl (hok (by omega)) (by omega) (by omega) (fun x => (hI x).elim)
        (by omega) h.memoryForm
  case len3 =>
    split_ifs at e with hl <;> cases e
    · simp only [lengthValid, decide_eq_true_eq] at hl
      exact h.parsing hm rfl rfl rfl hc rfl rfl (hok (by omega)) (fun _ => hl) (by right; simp; omega) (fun x =>
          (hI x).elim) (fun _ _ => hl) h.memoryForm
    · exact h.malformed hm hc _
  case token =>
    split_ifs at e with hl <;> cases e
    · exact h.parsing hm rfl rfl rfl hc rfl rfl (hok (by omega)) (fun _ => hT hst) (by right; simp; omega)
        (fun x => (hI x).elim) (by omega) h.memoryForm
    · exact h.malformed hm hc _
  case data k =>
    obtain ⟨ha, e⟩ := atPayload_eq_next.1 e
    cases e
    exact h.parsing hm rfl rfl rfl hc rfl rfl (hok (by omega)) (fun _ => hP (by omega)) (by right; simp; omega)
        (fun x => (hI x).elim) (by omega) (Memory.wf_write _ _ h.memoryForm ha)
  case chk0 =>
    cases e
    exact h.parsing hm rfl rfl rfl hc rfl rfl (hok (by omega)) (fun _ => hP (by omega)) (by right; simp; omega)
        (fun x => (hI x).elim) (by omega) h.memoryForm
  case chk1 =>
    split_ifs at e <;> cases e
    · exact h.acceptLast hm (by omega)
    · exact h.malformed hm hc _

/-- Every stage of `EAST.GETBYTE` keeps the invariant. -/
theorem eastGetStage_inv {s t : State} {st : EastStage} (h : s.Inv) (hv : s.variant = .east) (hm : s.mode = .output)
    (hc : s.complete = false) (hst : eastStageAt s.index.toNat s.actsize.toNat st)
    (e : eastGetStage st s = .next t) : t.Inv := by
  have hh : Config.hdr s.variant = 3 := by rw [hv]; rfl
  have ho : Config.ovh s.variant = 6 := by rw [hv]; rfl
  have hE := h.eastCheck hv
  have hi := h.index_succ
  cases st <;> simp only [eastGetStage, eastStageAt] at e hst
  case start =>
    cases e
    exact h.sending hm rfl rfl rfl rfl rfl rfl rfl (by simp [hc]) (by simp; omega) (fun _ => by simp)
  case len0 | len1 | stop | chk0 =>
    cases e
    exact h.sending hm rfl rfl rfl rfl rfl rfl rfl (by simp [hc]) (by simp; omega) (fun _ => hE)
  case data k =>
    obtain ⟨ha, e⟩ := atPayload_eq_next.1 e
    cases e
    exact h.sending hm rfl rfl rfl rfl rfl rfl rfl (by simp [hc]) (by simp; omega) (fun _ => xorUpd_high _ _ hE)
  case chk1 =>
    cases e
    exact h.sending hm rfl rfl rfl rfl rfl rfl rfl (fun _ => rfl) (by simp) (fun _ => hE)

/-- Every stage of `ICE.GETBYTE` keeps the invariant. -/
theorem iceGetStage_inv {s t : State} {st : IceStage} (h : s.Inv) (hv : s.variant = .icemkii) (hm : s.mode = .output)
    (hc : s.complete = false) (hst : iceStageAt s.index.toNat s.actsize.toNat st)
    (e : iceGetStage st s = .next t) : t.Inv := by
  have hh : Config.hdr s.variant = 8 := by rw [hv]; rfl
  have ho : Config.ovh s.variant = 10 := by rw [hv]; rfl
  have hE : s.variant = .east → False := by rw [hv]; simp
  have hi := h.index_succ
  cases st <;> simp only [iceGetStage, iceStageAt] at e hst
  case start | seq0 | seq1 | len0 | len1 | len2 | len3 | token | chk0 =>
    cases e
    exact h.sending hm rfl rfl rfl rfl rfl rfl rfl (by simp [iceEmit, hc]) (by simp [iceEmit]; omega)
      (fun x => (hE x).elim)
  case data k =>
    obtain ⟨ha, e⟩ := atPayload_eq_next.1 e
    cases e
    exact h.sending hm rfl rfl rfl rfl rfl rfl rfl (by simp [iceEmit, hc]) (by simp [iceEmit]; omega)
      (fun x => (hE x).elim)
  case chk1 =>
    cases e
    exact h.sending hm rfl rfl rfl rfl rfl rfl rfl (fun _ => rfl) (by simp) (fun x => (hE x).elim)

end Sys2Proof.Machine
end

