-- ==== Sys2Proof/Laws/PerInstr.lean ====
section
/-! SUPPORT. One lemma per operation for the families of LAWS.json. `RoundTrip`: the ports that ask for an operation
are decoded as that operation, on every variant that has it. -/

namespace Sys2Proof.Laws.RoundTrip

/-- The ports that ask for `i`, presented to an instance that has `i`, are decoded as `i`. -/
def Statement (i : Instr) : Prop := ∀ v : Variant, i.wf v = true → decode v (encode i) = i

theorem nop : Statement .nop := by intro v _; cases v <;> rfl

theorem eastSetbuf (m : Mode) (a : Addr) (n : Word) : Statement (.eastSetbuf m a n) := by
  intro v h; cases v <;> cases m <;> first | rfl | cases h

theorem eastPutbyte (b : Byte) : Statement (.eastPutbyte b) := by intro v h; cases v <;> first | rfl | cases h

theorem eastGetbyte : Statement .eastGetbyte := by intro v h; cases v <;> first | rfl | cases h

theorem eastGetsize : Statement .eastGetsize := by intro v h; cases v <;> first | rfl | cases h

theorem iceSetbuf (m : Mode) (a : Addr) (n : Word) : Statement (.iceSetbuf m a n) := by
  intro v h; cases v <;> cases m <;> first | rfl | cases h

theorem icePutbyte (b : Byte) : Statement (.icePutbyte b) := by intro v h; cases v <;> first | rfl | cases h

theorem iceGetbyte : Statement .iceGetbyte := by intro v h; cases v <;> first | rfl | cases h

theorem iceGetsize : Statement .iceGetsize := by intro v h; cases v <;> first | rfl | cases h

theorem iceSetseq (q : Half) : Statement (.iceSetseq q) := by intro v h; cases v <;> first | rfl | cases h

theorem reserved5 : Statement .reserved5 := by intro v h; cases v <;> first | rfl | cases h

theorem reserved6 : Statement .reserved6 := by intro v _; cases v <;> rfl

theorem reserved7 : Statement .reserved7 := by intro v _; cases v <;> rfl

end Sys2Proof.Laws.RoundTrip
end

