-- ==== Sys2Proof/Laws/Run.lean ====
section
/-! SUPPORT. Sequences of operations: one operation at a time, one sequence after another, and the payload bytes of a
frame put or got one by one. -/

namespace Sys2Proof.Machine

theorem execAll_nil (s : State) : execAll [] s = some ([], s) := rfl

theorem execAll_cons {i : Instr} {is : List Instr} {s t : State} (h : exec i s = .next t) :
    execAll (i :: is) s = (execAll is t).map fun x => (t.response :: x.1, x.2) := by
  rw [execAll, h]

theorem execAll_append {is js : List Instr} {s t u : State} {rs qs : List (Option Response)}
    (h : execAll is s = some (rs, t)) (h' : execAll js t = some (qs, u)) :
    execAll (is ++ js) s = some (rs ++ qs, u) := by
  induction is generalizing s rs with
  | nil => cases h; exact h'
  | cons i is ih =>
    rw [List.cons_append]
    cases hi : exec i s with
    | next v =>
      rw [execAll_cons hi] at h ⊢
      cases hv : execAll is v with
      | none => rw [hv] at h; cases h
      | some x =>
        rw [hv] at h
        obtain ⟨rfl, rfl⟩ := Prod.mk.inj (Option.some.inj h)
        rw [ih hv]; rfl
    | fault r => rw [execAll, hi] at h; cases h
    | refused r => rw [execAll, hi] at h; cases h

/-- One operation in front of a sequence. -/
theorem execAll_step {i : Instr} {is : List Instr} {s t u : State} {qs : List (Option Response)}
    (h : exec i s = .next t) (h' : execAll is t = some (qs, u)) :
    execAll (i :: is) s = some (t.response :: qs, u) := by
  rw [execAll_cons h, h']; rfl

/-- Bytes written one after another from address `a` on. -/
def Memory.writeAll : Memory → Nat → List Byte → Memory
  | m, _, [] => m
  | m, a, b :: bs => Memory.writeAll (m.write a b) (a + 1) bs

theorem Memory.read_writeAll_outside (m : Memory) (a : Nat) (bs : List Byte) (a' : Nat)
    (h : a' < a ∨ a + bs.length ≤ a') : (m.writeAll a bs).read a' = m.read a' := by
  induction bs generalizing m a with
  | nil => rfl
  | cons b bs ih =>
    rw [List.length_cons] at h
    rw [Memory.writeAll, ih _ _ (by omega), Memory.read_write, if_neg (by omega)]

theorem Memory.read_writeAll_inside (m : Memory) (a : Nat) (bs : List Byte) {k : Nat} (h : k < bs.length) :
    (m.writeAll a bs).read (a + k) = some bs[k] := by
  induction bs generalizing m a k with
  | nil => simp at h
  | cons b bs ih =>
    cases k with
    | zero => rw [Memory.writeAll, Memory.read_writeAll_outside _ _ _ _ (by omega), Memory.read_write]; simp
    | succ k =>
      rw [Memory.writeAll, show a + (k + 1) = a + 1 + k by omega, ih _ _ (by simpa using h)]
      rfl

/-- A window read back after its bytes were written. -/
theorem window_of_writeAll {s : State} {m : Memory} {a : Nat} {bs : List Byte} (h : s.mem = m.writeAll a bs) :
    s.window a bs.length = bs := by
  apply List.ext_getElem
  · simp [State.window]
  · intro k h1 h2
    simp only [State.window, List.getElem_map, List.getElem_range, State.byteAt, h]
    rw [Memory.read_writeAll_inside m a bs h2]; rfl

/-- The next payload byte of a window. -/
theorem window_succ (s : State) (a n : Nat) : s.window a (n + 1) = s.byteAt a :: s.window (a + 1) n := by
  simp only [State.window, List.range_succ_eq_map, List.map_cons, List.map_map, Nat.add_zero]
  congr 1
  apply List.map_congr_left
  intro k _
  simp only [Function.comp, Nat.succ_eq_add_one]
  congr 1; omega

theorem window_length (s : State) (a n : Nat) : (s.window a n).length = n := by simp [State.window]

/-- A window depends on memory alone. -/
theorem window_congr {s t : State} (h : s.mem = t.mem) (a n : Nat) : s.window a n = t.window a n := by
  simp only [State.window, State.byteAt, h]

theorem execEastPutbyte_data {s : State} (v : Byte) (hv : s.variant = .east) (hm : s.mode = .input)
    (hc : s.complete = false) (h3 : 3 ≤ s.index.toNat) (hn : s.index.toNat < s.actsize.toNat + 3)
    (ha : s.bufptr.toNat + (s.index.toNat - 3) < Config.addrSpace) :
    exec (.eastPutbyte v) s = .next
      { s with
        mem := s.mem.write (s.bufptr.toNat + (s.index.toNat - 3)) v, chk := xorUpd s.chk v, index := s.index + 1
        response := inProgressResponse, txc := false, rxc := false } := by
  rw [exec, execEastPutbyte_stage hv hm hc (eastStage_data h3 hn), eastPutStage, atPayload_inside ha]
  rfl

theorem execIcePutbyte_data {s : State} (v : Byte) (hv : s.variant = .icemkii) (hm : s.mode = .input)
    (hc : s.complete = false) (h3 : 8 ≤ s.index.toNat) (hn : s.index.toNat < s.actsize.toNat + 8)
    (ha : s.bufptr.toNat + (s.index.toNat - 8) < Config.addrSpace) :
    exec (.icePutbyte v) s = .next
      { s with
        mem := s.mem.write (s.bufptr.toNat + (s.index.toNat - 8)) v, chk := crcUpd s.chk v, index := s.index + 1
        response := inProgressResponse, txc := false, rxc := false } := by
  rw [exec, execIcePutbyte_stage hv hm hc (iceStage_data h3 hn), icePutStage, atPayload_inside ha]
  rfl

theorem index_add_ofNat {i : Word} {n : Nat} (h : i.toNat + n < 2 ^ 32) :
    (i + BitVec.ofNat 32 n).toNat = i.toNat + n := by
  rw [BitVec.toNat_add, BitVec.toNat_ofNat]; omega

theorem index_add_succ (i : Word) (n : Nat) : i + 1 + BitVec.ofNat 32 n = i + BitVec.ofNat 32 (n + 1) := by
  apply BitVec.eq_of_toNat_eq
  simp only [BitVec.toNat_add, BitVec.toNat_ofNat, show (1 : Word).toNat = 1 from rfl]
  omega

/-- Payload bytes put one by one land in the window, in order, and are accumulated (EAST). -/
theorem execAll_eastPut_data (p : List Byte) {s : State} (hv : s.variant = .east) (hm : s.mode = .input)
    (hc : s.complete = false) (h3 : 3 ≤ s.index.toNat) (hn : s.index.toNat + p.length ≤ s.actsize.toNat + 3)
    (hw : s.bufptr.toNat + s.actsize.toNat ≤ Config.addrSpace) (hi : s.index.toNat + p.length < 2 ^ 32) :
    ∃ r x y, execAll (p.map .eastPutbyte) s = some (List.replicate p.length inProgressResponse,
      { s with
        mem := s.mem.writeAll (s.bufptr.toNat + (s.index.toNat - 3)) p, chk := p.foldl xorUpd s.chk
        index := s.index + BitVec.ofNat 32 p.length, response := r, txc := x, rxc := y }) := by
  induction p generalizing s with
  | nil => exact ⟨s.response, s.txc, s.rxc, by simp [execAll, Memory.writeAll]⟩
  | cons b p ih =>
    rw [List.length_cons] at hn hi
    have h1 := execEastPutbyte_data b hv hm hc h3 (by omega) (by omega)
    have hi1 : (s.index + 1).toNat = s.index.toNat + 1 := index_add_ofNat (n := 1) (by omega)
    obtain ⟨r, x, y, h2⟩ := ih (s := { s with
        mem := s.mem.write (s.bufptr.toNat + (s.index.toNat - 3)) b, chk := xorUpd s.chk b, index := s.index + 1
        response := inProgressResponse, txc := false, rxc := false }) hv hm hc
      (by rw [hi1]; omega) (by rw [hi1]; dsimp only; omega) hw (by rw [hi1]; omega)
    refine ⟨r, x, y, (execAll_step h1 h2).trans ?_⟩
    rw [List.length_cons, List.replicate_succ, Memory.writeAll]
    simp only [hi1, List.foldl_cons]
    rw [show s.index.toNat + 1 - 3 = s.index.toNat - 3 + 1 by omega, ← Nat.add_assoc, index_add_succ]

/-- Payload bytes put one by one land in the window, in order, and are accumulated (ICEMKII). -/
theorem execAll_icePut_data (p : List Byte) {s : State} (hv : s.variant = .icemkii) (hm : s.mode = .input)
    (hc : s.complete = false) (h3 : 8 ≤ s.index.toNat) (hn : s.index.toNat + p.length ≤ s.actsize.toNat + 8)
    (hw : s.bufptr.toNat + s.actsize.toNat ≤ Config.addrSpace) (hi : s.index.toNat + p.length < 2 ^ 32) :
    ∃ r x y, execAll (p.map .icePutbyte) s = some (List.replicate p.length inProgressResponse,
      { s with
        mem := s.mem.writeAll (s.bufptr.toNat + (s.index.toNat - 8)) p, chk := p.foldl crcUpd s.chk
        index := s.index + BitVec.ofNat 32 p.length, response := r, txc := x, rxc := y }) := by
  induction p generalizing s with
  | nil => exact ⟨s.response, s.txc, s.rxc, by simp [execAll, Memory.writeAll]⟩
  | cons b p ih =>
    rw [List.length_cons] at hn hi
    have h1 := execIcePutbyte_data b hv hm hc h3 (by omega) (by omega)
    have hi1 : (s.index + 1).toNat = s.index.toNat + 1 := index_add_ofNat (n := 1) (by omega)
    obtain ⟨r, x, y, h2⟩ := ih (s := { s with
        mem := s.mem.write (s.bufptr.toNat + (s.index.toNat - 8)) b, chk := crcUpd s.chk b, index := s.index + 1
        response := inProgressResponse, txc := false, rxc := false }) hv hm hc
      (by rw [hi1]; omega) (by rw [hi1]; dsimp only; omega) hw (by rw [hi1]; omega)
    refine ⟨r, x, y, (execAll_step h1 h2).trans ?_⟩
    rw [List.length_cons, List.replicate_succ, Memory.writeAll]
    simp only [hi1, List.foldl_cons]
    rw [show s.index.toNat + 1 - 8 = s.index.toNat - 8 + 1 by omega, ← Nat.add_assoc, index_add_succ]

theorem execEastGetbyte_data {s : State} (hv : s.variant = .east) (hm : s.mode = .output)
    (hc : s.complete = false) (h3 : 3 ≤ s.index.toNat) (hn : s.index.toNat < s.actsize.toNat + 3)
    (ha : s.bufptr.toNat + (s.index.toNat - 3) < Config.addrSpace) :
    exec .eastGetbyte s = .next
      { s with
        chk := xorUpd s.chk (s.byteAt (s.bufptr.toNat + (s.index.toNat - 3))), index := s.index + 1
        response := some ⟨.inProgress, s.byteAt (s.bufptr.toNat + (s.index.toNat - 3)), 0⟩
        txc := false, rxc := false } := by
  rw [exec, execEastGetbyte_stage hv hm hc (eastStage_data h3 hn), eastGetStage, atPayload_inside ha]
  rfl

/-- Payload bytes got one by one are the window's, in order, and are accumulated (EAST). -/
theorem execAll_eastGet_data (n : Nat) {s : State} (hv : s.variant = .east) (hm : s.mode = .output)
    (hc : s.complete = false) (h3 : 3 ≤ s.index.toNat) (hn : s.index.toNat + n ≤ s.actsize.toNat + 3)
    (hw : s.bufptr.toNat + s.actsize.toNat ≤ Config.addrSpace) (hi : s.index.toNat + n < 2 ^ 32) :
    ∃ r x y, execAll (List.replicate n .eastGetbyte) s =
      some ((s.window (s.bufptr.toNat + (s.index.toNat - 3)) n).map fun b => some ⟨.inProgress, b, 0⟩,
        { s with
          chk := (s.window (s.bufptr.toNat + (s.index.toNat - 3)) n).foldl xorUpd s.chk
          index := s.index + BitVec.ofNat 32 n, response := r, txc := x, rxc := y }) := by
  induction n generalizing s with
  | zero => exact ⟨s.response, s.txc, s.rxc, by simp [execAll, State.window]⟩
  | succ n ih =>
    have h1 := execEastGetbyte_data hv hm hc h3 (by omega) (by omega)
    have hi1 : (s.index + 1).toNat = s.index.toNat + 1 := index_add_ofNat (n := 1) (by omega)
    obtain ⟨r, x, y, h2⟩ := ih (s := { s with
        chk := xorUpd s.chk (s.byteAt (s.bufptr.toNat + (s.index.toNat - 3))), index := s.index + 1
        response := some ⟨.inProgress, s.byteAt (s.bufptr.toNat + (s.index.toNat - 3)), 0⟩
        txc := false, rxc := false }) hv hm hc
      (by rw [hi1]; omega) (by rw [hi1]; dsimp only; omega) hw (by rw [hi1]; omega)
    refine ⟨r, x, y, (execAll_step h1 h2).trans ?_⟩
    rw [window_succ s]
    simp only [hi1, List.foldl_cons, List.map_cons]
    rw [show s.index.toNat + 1 - 3 = s.index.toNat - 3 + 1 by omega, ← Nat.add_assoc, index_add_succ]
    rfl

theorem execIceGetbyte_data {s : State} (hv : s.variant = .icemkii) (hm : s.mode = .output)
    (hc : s.complete = false) (h3 : 8 ≤ s.index.toNat) (hn : s.index.toNat < s.actsize.toNat + 8)
    (ha : s.bufptr.toNat + (s.index.toNat - 8) < Config.addrSpace) :
    exec .iceGetbyte s = .next
      { s with
        chk := crcUpd s.chk (s.byteAt (s.bufptr.toNat + (s.index.toNat - 8))), index := s.index + 1
        response := some ⟨.inProgress, s.byteAt (s.bufptr.toNat + (s.index.toNat - 8)), 0⟩
        txc := false, rxc := false } := by
  rw [exec, execIceGetbyte_stage hv hm hc (iceStage_data h3 hn), iceGetStage, atPayload_inside ha]
  rfl

/-- Payload bytes got one by one are the window's, in order, and are accumulated (ICEMKII). -/
theorem execAll_iceGet_data (n : Nat) {s : State} (hv : s.variant = .icemkii) (hm : s.mode = .output)
    (hc : s.complete = false) (h3 : 8 ≤ s.index.toNat) (hn : s.index.toNat + n ≤ s.actsize.toNat + 8)
    (hw : s.bufptr.toNat + s.actsize.toNat ≤ Config.addrSpace) (hi : s.index.toNat + n < 2 ^ 32) :
    ∃ r x y, execAll (List.replicate n .iceGetbyte) s =
      some ((s.window (s.bufptr.toNat + (s.index.toNat - 8)) n).map fun b => some ⟨.inProgress, b, 0⟩,
        { s with
          chk := (s.window (s.bufptr.toNat + (s.index.toNat - 8)) n).foldl crcUpd s.chk
          index := s.index + BitVec.ofNat 32 n, response := r, txc := x, rxc := y }) := by
  induction n generalizing s with
  | zero => exact ⟨s.response, s.txc, s.rxc, by simp [execAll, State.window]⟩
  | succ n ih =>
    have h1 := execIceGetbyte_data hv hm hc h3 (by omega) (by omega)
    have hi1 : (s.index + 1).toNat = s.index.toNat + 1 := index_add_ofNat (n := 1) (by omega)
    obtain ⟨r, x, y, h2⟩ := ih (s := { s with
        chk := crcUpd s.chk (s.byteAt (s.bufptr.toNat + (s.index.toNat - 8))), index := s.index + 1
        response := some ⟨.inProgress, s.byteAt (s.bufptr.toNat + (s.index.toNat - 8)), 0⟩
        txc := false, rxc := false }) hv hm hc
      (by rw [hi1]; omega) (by rw [hi1]; dsimp only; omega) hw (by rw [hi1]; omega)
    refine ⟨r, x, y, (execAll_step h1 h2).trans ?_⟩
    rw [window_succ s]
    simp only [hi1, List.foldl_cons, List.map_cons]
    rw [show s.index.toNat + 1 - 8 = s.index.toNat - 8 + 1 by omega, ← Nat.add_assoc, index_add_succ]
    rfl

/-- The responses that carry a frame: all but the last byte come with `InProgress`. -/
theorem sentResponses_append_last (bs : List Byte) (b : Byte) :
    sentResponses (bs ++ [b]) = (bs.map fun c => some ⟨.inProgress, c, 0⟩) ++ [some ⟨.complete, b, 0⟩] := by
  induction bs with
  | nil => rfl
  | cons c bs ih =>
    cases bs with
    | nil => rfl
    | cons d bs =>
      rw [List.cons_append, List.cons_append, sentResponses, ← List.cons_append, ih]; rfl

end Sys2Proof.Machine
end

