-- ==== Sys2Proof/Tests/Slice0.lean ====
section
/-! SUPPORT. Tests of the model against the spec's own encodings, tables and vectors, and one witness per obligation
that has hypotheses: a concrete state and operands that meet them all. A test's comment names the table or vector of
spec/ that gives its expected result. -/

namespace Sys2Proof.Tests

open Sys2Proof Sys2Proof.Machine

/-! ## Well-formedness: one refused term for each column of R80 -/

theorem test_wf_refuses_east_setbuf_on_icemkii : (Instr.eastSetbuf .input 0 1).wf .icemkii = false := by decide
theorem test_wf_refuses_east_putbyte_on_icemkii : (Instr.eastPutbyte 0x24).wf .icemkii = false := by decide
theorem test_wf_refuses_east_getbyte_on_icemkii : Instr.eastGetbyte.wf .icemkii = false := by decide
theorem test_wf_refuses_east_getsize_on_icemkii : Instr.eastGetsize.wf .icemkii = false := by decide
theorem test_wf_refuses_reserved5_on_icemkii : Instr.reserved5.wf .icemkii = false := by decide
theorem test_wf_refuses_ice_setbuf_on_east : (Instr.iceSetbuf .output 0 1).wf .east = false := by decide
theorem test_wf_refuses_ice_putbyte_on_east : (Instr.icePutbyte 0x1B).wf .east = false := by decide
theorem test_wf_refuses_ice_getbyte_on_east : Instr.iceGetbyte.wf .east = false := by decide
theorem test_wf_refuses_ice_getsize_on_east : Instr.iceGetsize.wf .east = false := by decide
theorem test_wf_refuses_ice_setseq_on_east : (Instr.iceSetseq 5).wf .east = false := by decide

/-! ## Decoding: the words of R80's operation map, `op` at bits 2:0 (spec/opcode_table.json), then `mode` at bit 3,
`ptr` at bits 35:4, `size` at 67:36, `value` at 75:68, `seq` at 91:76 (log 5) -/

theorem test_decode_nop : decodeWord .east 0b000 = .ok .nop ∧ decodeWord .icemkii 0b000 = .ok .nop := by decide

/-- S5 with `size` 65535: `size` bits 0xFFFF, `ptr` 0, `mode` 0, `op` 001. -/
theorem test_decode_east_setbuf : decodeWord .east 0xFFFF000000001 = .ok (.eastSetbuf .input 0 65535) := by decide

/-- `value` 0xA5 = 10100101 at bits 75:68, `op` 010. -/
theorem test_decode_east_putbyte : decodeWord .east 0xA500000000000000002 = .ok (.eastPutbyte 0xA5) := by decide
theorem test_decode_east_getbyte : decodeWord .east 0b011 = .ok .eastGetbyte := by decide
theorem test_decode_east_getsize : decodeWord .east 0b100 = .ok .eastGetsize := by decide
theorem test_decode_reserved5 : decodeWord .east 0b101 = .ok .reserved5 := by decide

/-- S13: `op=1 mode=1 ptr=0x20000800 size=0x5`: nibbles from bit 0: 1001, then the pointer, then the size. -/
theorem test_decode_ice_setbuf : decodeWord .icemkii 0x5200008009 = .ok (.iceSetbuf .output 0x20000800 5) := by decide
theorem test_decode_ice_putbyte : decodeWord .icemkii 0x1B00000000000000002 = .ok (.icePutbyte 0x1B) := by decide
theorem test_decode_ice_getbyte : decodeWord .icemkii 0b011 = .ok .iceGetbyte := by decide
theorem test_decode_ice_getsize : decodeWord .icemkii 0b100 = .ok .iceGetsize := by decide

/-- `seq` 0x0005 at bits 91:76, `op` 101. -/
theorem test_decode_ice_setseq : decodeWord .icemkii 0x50000000000000000005 = .ok (.iceSetseq 5) := by decide
theorem test_decode_reserved6 : decodeWord .east 0b110 = .ok .reserved6 ∧ decodeWord .icemkii 0b110 = .ok .reserved6
    := by
  decide
theorem test_decode_reserved7 : decodeWord .east 0b111 = .ok .reserved7 ∧ decodeWord .icemkii 0b111 = .ok .reserved7
    := by
  decide

/-- Bits above the last port are rejected by name. -/
theorem test_decode_rejects_high_bits : decodeWord .icemkii (2 ^ 92 + 3) = .error .bitsBeyondPorts := by decide

/-- The bytes of a command, low byte first. -/
theorem test_decode_bytes : decodeBytes .icemkii [0x02, 0, 0, 0, 0, 0, 0, 0, 0xB0, 0x01] = .ok
    (.icePutbyte 0x1B) := by
  decide

/-- The first step after reset runs a table word: code 3 on the reset instance is `ICE.GETBYTE`, refused there
(R231). -/
theorem test_first_step_runs_table_word :
    decodeTableWord 8 3 = some .iceGetbyte ∧
      ∃ t, step (State.reset.withFetchWord 8 3) = .next t ∧ t.response = some ⟨.error, 0, 0⟩ := by
  exact ⟨by decide, _, rfl, by decide⟩

/-! ## The CRC table of R193, as the spec lists it -/

theorem test_crc_table_00_to_3f :
    (List.range' 0 64).map (fun n => crcTable (BitVec.ofNat 8 n)) =
      [0x0000, 0x1189, 0x2312, 0x329B, 0x4624, 0x57AD, 0x6536, 0x74BF] ++
      [0x8C48, 0x9DC1, 0xAF5A, 0xBED3, 0xCA6C, 0xDBE5, 0xE97E, 0xF8F7] ++
      [0x1081, 0x0108, 0x3393, 0x221A, 0x56A5, 0x472C, 0x75B7, 0x643E] ++
      [0x9CC9, 0x8D40, 0xBFDB, 0xAE52, 0xDAED, 0xCB64, 0xF9FF, 0xE876] ++
      [0x2102, 0x308B, 0x0210, 0x1399, 0x6726, 0x76AF, 0x4434, 0x55BD] ++
      [0xAD4A, 0xBCC3, 0x8E58, 0x9FD1, 0xEB6E, 0xFAE7, 0xC87C, 0xD9F5] ++
      [0x3183, 0x200A, 0x1291, 0x0318, 0x77A7, 0x662E, 0x54B5, 0x453C] ++
      [0xBDCB, 0xAC42, 0x9ED9, 0x8F50, 0xFBEF, 0xEA66, 0xD8FD, 0xC974] := by decide

theorem test_crc_table_40_to_7f :
    (List.range' 64 64).map (fun n => crcTable (BitVec.ofNat 8 n)) =
      [0x4204, 0x538D, 0x6116, 0x709F, 0x0420, 0x15A9, 0x2732, 0x36BB] ++
      [0xCE4C, 0xDFC5, 0xED5E, 0xFCD7, 0x8868, 0x99E1, 0xAB7A, 0xBAF3] ++
      [0x5285, 0x430C, 0x7197, 0x601E, 0x14A1, 0x0528, 0x37B3, 0x263A] ++
      [0xDECD, 0xCF44, 0xFDDF, 0xEC56, 0x98E9, 0x8960, 0xBBFB, 0xAA72] ++
      [0x6306, 0x728F, 0x4014, 0x519D, 0x2522, 0x34AB, 0x0630, 0x17B9] ++
      [0xEF4E, 0xFEC7, 0xCC5C, 0xDDD5, 0xA96A, 0xB8E3, 0x8A78, 0x9BF1] ++
      [0x7387, 0x620E, 0x5095, 0x411C, 0x35A3, 0x242A, 0x16B1, 0x0738] ++
      [0xFFCF, 0xEE46, 0xDCDD, 0xCD54, 0xB9EB, 0xA862, 0x9AF9, 0x8B70] := by decide

theorem test_crc_table_80_to_bf :
    (List.range' 128 64).map (fun n => crcTable (BitVec.ofNat 8 n)) =
      [0x8408, 0x9581, 0xA71A, 0xB693, 0xC22C, 0xD3A5, 0xE13E, 0xF0B7] ++
      [0x0840, 0x19C9, 0x2B52, 0x3ADB, 0x4E64, 0x5FED, 0x6D76, 0x7CFF] ++
      [0x9489, 0x8500, 0xB79B, 0xA612, 0xD2AD, 0xC324, 0xF1BF, 0xE036] ++
      [0x18C1, 0x0948, 0x3BD3, 0x2A5A, 0x5EE5, 0x4F6C, 0x7DF7, 0x6C7E] ++
      [0xA50A, 0xB483, 0x8618, 0x9791, 0xE32E, 0xF2A7, 0xC03C, 0xD1B5] ++
      [0x2942, 0x38CB, 0x0A50, 0x1BD9, 0x6F66, 0x7EEF, 0x4C74, 0x5DFD] ++
      [0xB58B, 0xA402, 0x9699, 0x8710, 0xF3AF, 0xE226, 0xD0BD, 0xC134] ++
      [0x39C3, 0x284A, 0x1AD1, 0x0B58, 0x7FE7, 0x6E6E, 0x5CF5, 0x4D7C] := by decide

theorem test_crc_table_c0_to_ff :
    (List.range' 192 64).map (fun n => crcTable (BitVec.ofNat 8 n)) =
      [0xC60C, 0xD785, 0xE51E, 0xF497, 0x8028, 0x91A1, 0xA33A, 0xB2B3] ++
      [0x4A44, 0x5BCD, 0x6956, 0x78DF, 0x0C60, 0x1DE9, 0x2F72, 0x3EFB] ++
      [0xD68D, 0xC704, 0xF59F, 0xE416, 0x90A9, 0x8120, 0xB3BB, 0xA232] ++
      [0x5AC5, 0x4B4C, 0x79D7, 0x685E, 0x1CE1, 0x0D68, 0x3FF3, 0x2E7A] ++
      [0xE70E, 0xF687, 0xC41C, 0xD595, 0xA12A, 0xB0A3, 0x8238, 0x93B1] ++
      [0x6B46, 0x7ACF, 0x4854, 0x59DD, 0x2D62, 0x3CEB, 0x0E70, 0x1FF9] ++
      [0xF78F, 0xE606, 0xD49D, 0xC514, 0xB1AB, 0xA022, 0x92B9, 0x8330] ++
      [0x7BC7, 0x6A4E, 0x58D5, 0x495C, 0x3DE3, 0x2C6A, 0x1EF1, 0x0F78] := by decide

/-! ## Small states -/

/-- An instance bound for input to `n` bytes at 0x20000400, between frames. -/
def bound (v : Variant) (n : Word) : State := { State.resetOf v with bufptr := 0x20000400, maxsize := n }

/-- An EAST instance that has taken `i` bytes of a frame with 2 payload bytes. -/
def eastParsing (i : Nat) : State :=
  { bound .east 2 with
    index := BitVec.ofNat 32 i, actsize := if i ≤ 1 then 0 else 2, ok := decide (0 < i), chk := 0x0011, rxl := 0x11 }

/-- An ICEMKII instance that has taken `i` bytes of a frame with 2 payload bytes. -/
def iceParsing (i : Nat) : State :=
  { bound .icemkii 2 with
    index := BitVec.ofNat 32 i, actsize := if i ≤ 3 then 0 else 2, ok := decide (0 < i), chk := 0x2211, rxl := 0x11
    seq := 0x1234 }

/-- The payload `41 42 43` of the vectors E2 and program P2. -/
def payloadMem : Memory := [(0x20000100, 0x41), (0x20000101, 0x42), (0x20000102, 0x43)]

/-- An instance bound for output to that payload that has produced `i` bytes of its frame. -/
def sending (v : Variant) (i : Nat) : State :=
  { State.resetOf v with
    bufptr := 0x20000100, mode := .output, maxsize := 3, actsize := 3, index := BitVec.ofNat 32 i, chk := 0x0040
    mem := payloadMem }

/-- The same state with an operation asked for. -/
def asking (i : Instr) (s : State) : State := presentCommand (encode i) s

theorem inv_bound_east : (bound .east 64).Inv := by constructor <;> decide
theorem inv_bound_icemkii : (bound .icemkii 64).Inv := by constructor <;> decide
theorem inv_eastParsing : ∀ i ∈ List.range 8, (eastParsing i).Inv := by
  intro i hi; fin_cases hi <;> constructor <;> decide
theorem inv_iceParsing : ∀ i ∈ List.range 12, (iceParsing i).Inv := by
  intro i hi; fin_cases hi <;> constructor <;> decide
theorem inv_sending_east : ∀ i ∈ List.range 9, (sending .east i).Inv := by
  intro i hi; fin_cases hi <;> constructor <;> decide
theorem inv_sending_icemkii : ∀ i ∈ List.range 13, (sending .icemkii i).Inv := by
  intro i hi; fin_cases hi <;> constructor <;> decide

/-! ## One step of each operation -/

/-- R108. -/
theorem test_nop_answers_in_progress :
    ∃ t, exec .nop (eastParsing 5) = .next t ∧ t.response = some ⟨.inProgress, 0, 0⟩ ∧ t.index = 5 := by
  exact ⟨_, rfl, by decide, by decide⟩

/-- Vector S2. -/
theorem test_east_setbuf_output :
    ∃ t, exec (.eastSetbuf .output 0x20000400 3) (State.resetOf .east) = .next t ∧
      t.response = some ⟨.inProgress, 0, 0⟩ ∧ t.actsize = 3 ∧ t.mode = .output ∧ t.bufptr = 0x20000400 := by
  exact ⟨_, rfl, by decide⟩

/-- Vectors S6 and S8: one byte too many, and one byte past the address space. -/
theorem test_east_setbuf_limits :
    (∃ t, exec (.eastSetbuf .input 0 65536) (State.resetOf .east) = .next t ∧ t.response = some ⟨.error, 0, 0⟩) ∧
    ∃ t, exec (.eastSetbuf .output 0xFFFFFFF0 17) (State.resetOf .east) = .next t ∧
      t.response = some ⟨.error, 0, 0⟩ ∧ t.maxsize = 0 := by
  exact ⟨⟨_, rfl, by decide⟩, _, rfl, by decide⟩

/-- Vector E16: the high length byte makes 0x0103 from low byte 03, accepted within 300. -/
theorem test_east_putbyte_length :
    ∃ t, exec (.eastPutbyte 0x01) { bound .east 300 with index := 2, actsize := 3, ok := true } = .next t ∧
      t.actsize = 259 ∧ t.index = 3 ∧ t.ok = true := by
  exact ⟨_, rfl, by decide⟩

/-- Vector E20: the checksum's high byte must be 00; the frame is dropped in silence. -/
theorem test_east_putbyte_bad_checksum :
    ∃ t, exec (.eastPutbyte 0x01) { bound .east 16 with index := 6, actsize := 1, ok := true, chk := 0x5A, rxl :=
        0x5A }
        = .next t ∧ t.response = some ⟨.inProgress, 0, 0⟩ ∧ t.index = 0 ∧ t.actsize = 0 ∧ t.ok = false ∧ t.rxl =
            0x5A := by
  exact ⟨_, rfl, by decide⟩

/-- Vector E2, first payload byte. -/
theorem test_east_getbyte_payload :
    ∃ t, exec .eastGetbyte { sending .east 3 with chk := 0 } = .next t ∧
      t.response = some ⟨.inProgress, 0x41, 0⟩ ∧ t.chk = 0x41 ∧ t.index = 4 := by
  exact ⟨_, rfl, by decide⟩

/-- Vector E2, last byte: checksum 0x0040, high byte, with `Complete` and `TXC`. -/
theorem test_east_getbyte_last :
    ∃ t, exec .eastGetbyte (sending .east 8) = .next t ∧
      t.response = some ⟨.complete, 0, 0⟩ ∧ t.txc = true ∧ t.complete = true ∧ t.index = 0 := by
  exact ⟨_, rfl, by decide⟩

/-- Program P2: 9 bytes to go for a payload of 3. -/
theorem test_east_getsize_output :
    ∃ t, exec .eastGetsize (sending .east 0) = .next t ∧ t.response = some ⟨.inProgress, 0, 9⟩ := by
  exact ⟨_, rfl, by decide⟩

/-- Vectors S9 and S10. -/
theorem test_ice_setbuf_limit :
    (∃ t, exec (.iceSetbuf .input 0 4294967285) (State.resetOf .icemkii) = .next t ∧ t.maxsize = 4294967285) ∧
    ∃ t, exec (.iceSetbuf .input 0 4294967286) (State.resetOf .icemkii) = .next t ∧
      t.response = some ⟨.error, 0, 0⟩ ∧ t.maxsize = 0 := by
  exact ⟨⟨_, rfl, by decide⟩, _, rfl, by decide⟩

/-- Vector S13: `SEQ` survives `SETBUF`. -/
theorem test_ice_setbuf_keeps_seq :
    ∃ t, exec (.iceSetbuf .output 0x20000800 5) (iceParsing 4) = .next t ∧ t.seq = 0x1234 ∧ t.actsize = 5 ∧ t.chk =
        0 := by
  exact ⟨_, rfl, by decide⟩

/-- Vector I26: after `SEQ0` only the low byte is replaced. -/
theorem test_ice_putbyte_seq0 :
    ∃ t, exec (.icePutbyte 0x34) { bound .icemkii 64 with index := 1, ok := true, seq := 0x0005, chk := 0xA1D5 } =
        .next t ∧
      t.seq = 0x0034 ∧ t.chk = 0xF626 ∧ t.index = 2 := by
  exact ⟨_, rfl, by decide⟩

/-- Vector I13: the last length byte makes 0x01000004; `CHK` is not accumulated. -/
theorem test_ice_putbyte_length_too_long :
    ∃ t, exec (.icePutbyte 0x01) { bound .icemkii 64 with index := 6, ok := true, actsize := 4, chk := 0x22D0 } =
        .next t ∧
      t.chk = 0x22D0 ∧ t.index = 0 ∧ t.actsize = 0 ∧ t.ok = false := by
  exact ⟨_, rfl, by decide⟩

/-- Vector I1, the sequence's low byte: after the start token `CHK` is 0xA1D5. -/
theorem test_ice_getbyte_seq0 :
    ∃ t, exec .iceGetbyte { sending .icemkii 1 with seq := 0x0005, chk := 0xA1D5 } = .next t ∧
      t.response = some ⟨.inProgress, 0x05, 0⟩ ∧ t.chk = 0xD62C := by
  exact ⟨_, rfl, by decide⟩

/-- Vector I2, last byte: CRC 0xEED7, high byte. -/
theorem test_ice_getbyte_last :
    ∃ t, exec .iceGetbyte { sending .icemkii 12 with chk := 0xEED7 } = .next t ∧
      t.response = some ⟨.complete, 0xEE, 0⟩ ∧ t.txc = true := by
  exact ⟨_, rfl, by decide⟩

/-- R157, output mode: `ACTSIZE + 10 - INDEX`. -/
theorem test_ice_getsize_output :
    ∃ t, exec .iceGetsize (sending .icemkii 12) = .next t ∧ t.response = some ⟨.inProgress, 0, 1⟩ := by
  exact ⟨_, rfl, by decide⟩

/-- R151. -/
theorem test_ice_setseq :
    ∃ t, exec (.iceSetseq 0xBEEF) (iceParsing 5) = .next t ∧ t.seq = 0xBEEF ∧ t.index = 5 := by
  exact ⟨_, rfl, by decide⟩

/-- R109, on the codes of both variants. -/
theorem test_reserved_codes_refused :
    (∃ t, exec .reserved5 (eastParsing 4) = .next t ∧ t.response = some ⟨.error, 0, 0⟩ ∧ t.index = 4) ∧
    (∃ t, exec .reserved6 (iceParsing 4) = .next t ∧ t.response = some ⟨.error, 0, 0⟩ ∧ t.index = 4) ∧
    ∃ t, exec .reserved7 (eastParsing 4) = .next t ∧ t.response = some ⟨.error, 0, 0⟩ ∧ t.index = 4 := by
  exact ⟨⟨_, rfl, by decide⟩, ⟨_, rfl, by decide⟩, _, rfl, by decide⟩

/-! ## Witnesses: states and operands that meet the hypotheses of the obligations -/

theorem witness_DecodingAnEncodedCommandGivesItBack :
    (Instr.eastSetbuf .output 0xFFFFFFFF 0xFFFFFFFF).wf .east = true ∧
        (Instr.iceSetseq 0xFFFF).wf .icemkii = true := by
  decide

theorem witness_StepExecutesThePresentedCommand :
    (asking .nop (bound .east 64)).inbox = .command (encode .nop) :: [] ∧
    (Instr.eastPutbyte 0x24).wf (bound .east 64).variant = true ∧
    (3 < 2 ^ 8 ∧ decodeWord (bound .icemkii 64).variant 3 = .ok .iceGetbyte) := by decide

theorem witness_IdlePortsExecuteNop : State.reset.inbox = [] := rfl

theorem witness_HardwareResetClearsEveryRegisterAndKeepsMemory :
    { eastParsing 5 with inbox := [.rst, .rst] }.inbox = .rst :: [.rst] := rfl

theorem witness_CallerWriteChangesExactlyOneByte :
    { sending .east 2 with inbox := [.memWrite 0x20000101 7] }.inbox = .memWrite 0x20000101 7 :: [] := rfl

theorem witness_ReservedCodesAreRefusedWithoutEffect :
    (encode .reserved6).op = 6 ∧ (encode .reserved7).op = 7 ∧ (encode .reserved5).op = 5 ∧
      (bound .east 64).variant = .east := by decide

/-- Each clause of R208 at its boundary, and an accepted value beside it. -/
theorem witness_EastSetbufFollowsItsRule :
    (State.resetOf .east).variant = .east ∧
    refusedOperands .east .input 0 65536 ∧ ¬refusedOperands .east .input 0 65535 ∧
    refusedOperands .east .output 0xFFFFFFF0 17 ∧ ¬refusedOperands .east .output 0xFFFFFFF0 16 ∧
    refusedOperands .east .output 0x20000400 0 ∧ ¬refusedOperands .east .input 0x20000400 0 := by
  unfold refusedOperands; decide

theorem witness_IceSetbufFollowsItsRule :
    (State.resetOf .icemkii).variant = .icemkii ∧
    refusedOperands .icemkii .input 0 4294967286 ∧ ¬refusedOperands .icemkii .input 0 4294967285 ∧
    refusedOperands .icemkii .input 0xC 4294967285 ∧ ¬refusedOperands .icemkii .input 0xB 4294967285 ∧
    refusedOperands .icemkii .output 0x20000400 0 ∧ ¬refusedOperands .icemkii .output 0x20000400 1 := by
  unfold refusedOperands; decide

theorem witness_IceSetseqWritesOnlySeq : (iceParsing 3).variant = .icemkii := rfl

/-- A state for every index from the start byte (0) to the last
    (`n + 5` with `n = 2`): each clause, the payload clause
at both ends; beside them a refusing one. -/
theorem witness_EastPutbyteFollowsItsRule :
    (∀ i ∈ List.range 8, (eastParsing i).variant = .east ∧ (eastParsing i).Inv) ∧
    (sending .east 0).variant = .east ∧ (sending .east 0).Inv :=
  ⟨fun i hi => ⟨rfl, inv_eastParsing i hi⟩, rfl, inv_sending_east 0 (by decide)⟩

/-- A state for every index from the start byte (0) to the last (`n + 9` with `n = 2`). -/
theorem witness_IcePutbyteFollowsItsRule :
    (∀ i ∈ List.range 12, (iceParsing i).variant = .icemkii ∧ (iceParsing i).Inv) ∧
    (sending .icemkii 0).variant = .icemkii ∧ (sending .icemkii 0).Inv :=
  ⟨fun i hi => ⟨rfl, inv_iceParsing i hi⟩, rfl, inv_sending_icemkii 0 (by decide)⟩

/-- A state for every index from the start byte (0) to the last (`n + 5` with `n = 3`). -/
theorem witness_EastGetbyteFollowsItsRule :
    (∀ i ∈ List.range 9, (sending .east i).variant = .east ∧ (sending .east i).Inv) ∧
    (eastParsing 0).variant = .east ∧ (eastParsing 0).Inv :=
  ⟨fun i hi => ⟨rfl, inv_sending_east i hi⟩, rfl, inv_eastParsing 0 (by decide)⟩

/-- A state for every index from the start byte (0) to the last (`n + 9` with `n = 3`). -/
theorem witness_IceGetbyteFollowsItsRule :
    (∀ i ∈ List.range 13, (sending .icemkii i).variant = .icemkii ∧ (sending .icemkii i).Inv) ∧
    (iceParsing 0).variant = .icemkii ∧ (iceParsing 0).Inv :=
  ⟨fun i hi => ⟨rfl, inv_sending_icemkii i hi⟩, rfl, inv_iceParsing 0 (by decide)⟩

theorem witness_EastGetsizeFollowsItsRule : (sending .east 8).variant = .east ∧ (sending .east 8).Inv :=
  ⟨rfl, inv_sending_east 8 (by decide)⟩

theorem witness_IceGetsizeFollowsItsRule : (sending .icemkii 12).variant = .icemkii ∧ (sending .icemkii 12).Inv :=
  ⟨rfl, inv_sending_icemkii 12 (by decide)⟩

/-- On either variant, at the first byte and at the last. -/
theorem witness_ReportedSizeFallsByOneWithEachGetbyte :
    (∀ i ∈ [0, 8], (sending .east i).Inv ∧ (sending .east i).mode = .output ∧ (sending .east i).complete = false ∧
      ∃ t, exec .eastGetbyte (sending .east i) = .next t) ∧
    ∀ i ∈ [0, 12], (sending .icemkii i).Inv ∧ (sending .icemkii i).mode = .output ∧
      (sending .icemkii i).complete = false ∧ ∃ t, exec .iceGetbyte (sending .icemkii i) = .next t := by
  constructor <;> intro i hi <;> fin_cases hi <;>
    exact ⟨by constructor <;> decide, rfl, rfl, _, rfl⟩

/-- A payload stage and another stage, on either variant. -/
theorem witness_PutbyteFrame :
    (∃ t, exec (.eastPutbyte 9) (eastParsing 4) = .next t) ∧ eastStage 4 2 = some (.data 1) ∧
    (∃ t, exec (.eastPutbyte 0x42) (eastParsing 5) = .next t) ∧ eastStage 5 2 = some .stop ∧
    (∃ t, exec (.icePutbyte 9) (iceParsing 8) = .next t) ∧ iceStage 8 2 = some (.data 0) ∧
    ∃ t, exec (.icePutbyte 9) (iceParsing 1) = .next t :=
  ⟨⟨_, rfl⟩, rfl, ⟨_, rfl⟩, rfl, ⟨_, rfl⟩, rfl, _, rfl⟩

theorem witness_GetbyteFrame :
    (∃ t, exec .eastGetbyte (sending .east 4) = .next t) ∧ ∃ t, exec .iceGetbyte (sending .icemkii 9) = .next t :=
  ⟨⟨_, rfl⟩, _, rfl⟩

theorem witness_OtherOperationsFrame :
    (∃ t, exec .eastGetsize (sending .east 4) = .next t) ∧ (∃ t, exec (.iceSetseq 7) (iceParsing 4) = .next t) ∧
    ∃ t, exec (.eastSetbuf .input 0 1) (eastParsing 4) = .next t := ⟨⟨_, rfl⟩, ⟨_, rfl⟩, _, rfl⟩

/-- A reset, an accepted `SETBUF` and another operation. -/
theorem witness_BindingIsWrittenOnlyBySetbufAndReset :
    (∃ t, step { eastParsing 3 with inbox := [.rst] } = .next t) ∧
    (∃ t, step (asking (.eastSetbuf .output 8 1) (eastParsing 3)) = .next t ∧ t.bufptr = 8) ∧
    ∃ t, step (asking .eastGetsize (eastParsing 3)) = .next t := ⟨⟨_, rfl⟩, ⟨_, rfl, rfl⟩, _, rfl⟩

/-- `COMPLETE` set by a parser and by a serialiser, and cleared by `SETBUF` and by reset. -/
theorem witness_CompleteIsSetAndClearedOnlyAsItsRuleSays :
    ((eastParsing 7).Inv ∧ ∃ t, step (asking (.eastPutbyte 0) (eastParsing 7)) = .next t ∧ t.complete = true) ∧
    ((sending .icemkii 12).Inv ∧
      ∃ t, step (asking .iceGetbyte (sending .icemkii 12)) = .next t ∧ t.complete = true) ∧
    ({ sending .east 0 with complete := true }.Inv ∧
      (∃ t, step (asking (.eastSetbuf .input 0 1) { sending .east 0 with complete := true }) = .next t ∧
        t.complete = false) ∧
      ∃ t, step { sending .east 0 with complete := true, inbox := [.rst] } = .next t ∧ t.complete = false) := by
  refine ⟨⟨inv_eastParsing 7 (by decide), _, rfl, rfl⟩, ⟨inv_sending_icemkii 12 (by decide), _, rfl, rfl⟩, ?_,
    ⟨_, rfl, rfl⟩, _, rfl, rfl⟩
  constructor <;> decide

/-- `OK` set by the start token; cleared by a malformed byte, by `SETBUF` and by reset. -/
theorem witness_OkIsWrittenOnlyAsItsRuleSays :
    (∃ t, step (asking (.icePutbyte 0x1B) (iceParsing 0)) = .next t ∧ (iceParsing 0).ok = false ∧ t.ok = true) ∧
    (∃ t, step (asking (.eastPutbyte 0x43) (eastParsing 5)) = .next t ∧ (eastParsing 5).ok = true ∧ t.ok = false) ∧
    (∃ t, step (asking (.eastSetbuf .input 0 1) (eastParsing 5)) = .next t ∧ t.ok = false) ∧
    ∃ t, step { eastParsing 5 with inbox := [.rst] } = .next t ∧ t.ok = false :=
  ⟨⟨_, rfl, rfl, rfl⟩, ⟨_, rfl, rfl, rfl⟩, ⟨_, rfl, rfl⟩, _, rfl, rfl⟩

theorem witness_EastInstanceNeverReadsSeq : (eastParsing 4).variant = .east := rfl

/-- Each way `SEQ` is written, and a step that leaves it. -/
theorem witness_SeqIsWrittenOnlyByItsBytesSetseqAndReset :
    (∃ t, step (asking (.icePutbyte 0x77) (iceParsing 1)) = .next t ∧ t.seq = 0x1277) ∧
    (∃ t, step (asking (.icePutbyte 0x77) (iceParsing 2)) = .next t ∧ t.seq = 0x7734) ∧
    (∃ t, step (asking (.iceSetseq 9) (iceParsing 2)) = .next t ∧ t.seq = 9) ∧
    (∃ t, step { iceParsing 2 with inbox := [.rst] } = .next t ∧ t.seq = 0) ∧
    ∃ t, step (asking (.icePutbyte 0x77) (iceParsing 3)) = .next t ∧ t.seq = 0x1234 :=
  ⟨⟨_, rfl, by decide⟩, ⟨_, rfl, by decide⟩, ⟨_, rfl, by decide⟩, ⟨_, rfl, by decide⟩, _, rfl, by decide⟩

/-- The low check byte on either variant; a step in output mode, a stage that is not the high check byte, and at the
high check byte in input mode a step that is no `PUTBYTE`. -/
theorem witness_RxlIsTheLatchOfTheLowCheckByte :
    ((eastParsing 6).Inv ∧ ∃ t, step (asking (.eastPutbyte 0x5A) (eastParsing 6)) = .next t ∧ t.rxl = 0x5A) ∧
    ((iceParsing 10).Inv ∧ ∃ t, step (asking (.icePutbyte 0x5A) (iceParsing 10)) = .next t ∧ t.rxl = 0x5A) ∧
    (sending .east 8).mode = .output ∧
    (eastParsing 6).index.toNat + 1 ≠ (eastParsing 6).actsize.toNat + Config.ovh .east ∧
    ((asking .eastGetsize (eastParsing 7)).index.toNat + 1 =
        (asking .eastGetsize (eastParsing 7)).actsize.toNat + Config.ovh .east ∧
      (asking .eastGetsize (eastParsing 7)).mode = .input ∧
      (asking .eastGetsize (eastParsing 7)).Inv ∧
      ∀ v, (asking .eastGetsize (eastParsing 7)).asked ≠ some (.eastPutbyte v) ∧
        (asking .eastGetsize (eastParsing 7)).asked ≠ some (.icePutbyte v)) := by
  refine ⟨⟨inv_eastParsing 6 (by decide), _, rfl, rfl⟩, ⟨inv_iceParsing 10 (by decide), _, rfl, rfl⟩, rfl, by decide,
    by decide, rfl, by constructor <;> decide, fun v => ?_⟩
  have h : (asking .eastGetsize (eastParsing 7)).asked = some .eastGetsize := by decide
  rw [h]
  exact ⟨by simp, by simp⟩

/-- `INDEX` moves up, stays, and returns to 0. -/
theorem witness_IndexStaysAdvancesOrReturnsToZero :
    ((iceParsing 8).Inv ∧ ∃ t, step (asking (.icePutbyte 1) (iceParsing 8)) = .next t ∧ t.index = 9) ∧
    (∃ t, step (asking .iceGetsize (iceParsing 8)) = .next t ∧ t.index = 8) ∧
    ∃ t, step (asking (.iceSetbuf .input 0 1) (iceParsing 8)) = .next t ∧ t.index = 0 :=
  ⟨⟨inv_iceParsing 8 (by decide), _, rfl, by decide⟩, ⟨_, rfl, by decide⟩, _, rfl, by decide⟩

/-- The last byte, where `TXC` comes, and the byte before it, where it does not. -/
theorem witness_TxcComesWithTheLastGetbyteOnly :
    ((sending .east 8).Inv ∧ ∃ t, step (asking .eastGetbyte (sending .east 8)) = .next t ∧ t.txc = true) ∧
    ((sending .icemkii 11).Inv ∧ ∃ t, step (asking .iceGetbyte (sending .icemkii 11)) = .next t ∧ t.txc = false) :=
  ⟨⟨inv_sending_east 8 (by decide), _, rfl, rfl⟩, inv_sending_icemkii 11 (by decide), _, rfl, rfl⟩

/-- The last byte with the right and with a wrong value. -/
theorem witness_RxcComesWithTheLastPutbyteOnly :
    ((iceParsing 11).Inv ∧ ∃ t, step (asking (.icePutbyte 0x22) (iceParsing 11)) = .next t ∧ t.rxc = true) ∧
    ((eastParsing 7).Inv ∧ ∃ t, step (asking (.eastPutbyte 1) (eastParsing 7)) = .next t ∧ t.rxc = false) :=
  ⟨⟨inv_iceParsing 11 (by decide), _, rfl, rfl⟩, inv_eastParsing 7 (by decide), _, rfl, rfl⟩

/-- A step with a response, one without, a `GETBYTE` with data and a `GETSIZE` with a size. -/
theorem witness_ResponsePortsFollowTheirRule :
    (∃ t, step { eastParsing 3 with inbox := [.rst] } = .next t ∧ t.response = none) ∧
    (∃ t, step (asking .eastGetbyte (sending .east 0)) = .next t ∧ t.response = some ⟨.inProgress, 0x24, 0⟩) ∧
    ∃ t, step (asking .eastGetsize (sending .east 0)) = .next t ∧ t.response = some ⟨.inProgress, 0, 9⟩ :=
  ⟨⟨_, rfl, rfl⟩, ⟨_, rfl, by decide⟩, _, rfl, by decide⟩

theorem witness_RefusalChangesNothingButTheResponse :
    ∃ t, step (asking .iceGetbyte (iceParsing 5)) = .next t ∧ t.response = some ⟨.error, 0, 0⟩ ∧
      (⟨.error, 0, 0⟩ : Response).status = .error := ⟨_, rfl, by decide, rfl⟩

/-- A refused and an accepted operation. -/
theorem witness_RefusedExactlyForTheFourCauses :
    ((eastParsing 3).Inv ∧ Instr.eastGetbyte.wf (eastParsing 3).variant = true) ∧
    (sending .icemkii 3).Inv ∧ Instr.iceGetbyte.wf (sending .icemkii 3).variant = true :=
  ⟨⟨inv_eastParsing 3 (by decide), by decide⟩, inv_sending_icemkii 3 (by decide), by decide⟩

/-- A malformed byte on either variant. -/
theorem witness_MalformedByteMakesExactlyThreeWrites :
    ((eastParsing 5).Inv ∧ (eastParsing 5).mode = .input ∧ (eastParsing 5).complete = false ∧
      ∃ t, exec (.eastPutbyte 0x43) (eastParsing 5) = .next t ∧ t.index = 0 ∧ t.complete = false) ∧
    ((iceParsing 7).Inv ∧ (iceParsing 7).mode = .input ∧ (iceParsing 7).complete = false ∧
      ∃ t, exec (.icePutbyte 0x0F) (iceParsing 7) = .next t ∧ t.index = 0 ∧ t.complete = false) :=
  ⟨⟨inv_eastParsing 5 (by decide), rfl, rfl, _, rfl, rfl, rfl⟩, inv_iceParsing 7
      (by decide), rfl, rfl, _, rfl, rfl, rfl⟩

/-- The first and the last payload byte; an address just below the window, and the first one above it. -/
theorem witness_AccessesStayInTheBoundWindow :
    (∀ i ∈ [3, 4], (eastParsing i).Inv ∧
      eastStage (eastParsing i).index.toNat (eastParsing i).actsize.toNat = some (.data (i - 3))) ∧
    (∀ i ∈ [8, 9], (iceParsing i).Inv ∧
      iceStage (iceParsing i).index.toNat (iceParsing i).actsize.toNat = some (.data (i - 8))) ∧
    (asking (.eastPutbyte 7) (eastParsing 4)).asked ≠ none ∧
    (∃ t, step (asking (.eastPutbyte 7) (eastParsing 4)) = .next t) ∧
    0x200003FF < (eastParsing 4).bufptr.toNat ∧
    (eastParsing 4).bufptr.toNat + (eastParsing 4).maxsize.toNat ≤ 0x20000402 := by
  refine ⟨?_, ?_, by decide, ⟨_, rfl⟩, by decide, by decide⟩ <;> intro i hi <;> fin_cases hi <;>
    exact ⟨by constructor <;> decide, by decide⟩

/-- A byte just outside the window differs. -/
theorem witness_BytesOutsideTheWindowAreNeverRead :
    (sending .east 3).Inv ∧ ∀ a, 0x20000100 ≤ a → a < 0x20000103 →
      Memory.read [(0x20000100, 0x41), (0x20000101, 0x42), (0x20000102, 0x43), (0x20000103, 0xFF)] a =
        payloadMem.read a := by
  refine ⟨inv_sending_east 3 (by decide), fun a h1 h2 => ?_⟩
  obtain rfl | rfl | rfl : a = 0x20000100 ∨ a = 0x20000101 ∨ a = 0x20000102 := by omega
  all_goals rfl

theorem witness_FlagsOutputShowsOkCompleteMode :
    (eastParsing 3).variant = .east ∧ (iceParsing 3).variant = .icemkii := ⟨rfl, rfl⟩

theorem witness_EmptyBindingAcceptsNoFrame :
    ((State.resetOf .east).Inv ∧ (State.resetOf .east).mode = .input ∧ (State.resetOf .east).maxsize = 0 ∧
      (State.resetOf .east).variant = .east) ∧
    ({ bound .icemkii 0 with index := 6, ok := true }.Inv ∧ { bound .icemkii 0 with index := 6, ok := true }.mode =
        .input ∧
      { bound .icemkii 0 with index := 6, ok := true }.maxsize = 0) := by
  refine ⟨⟨?_, rfl, rfl, rfl⟩, ?_, rfl, rfl⟩ <;> constructor <;> decide

/-- A step of a command, of a reset and of a memory write at the top of the address space. -/
theorem witness_EveryStepKeepsTheInvariant :
    ((eastParsing 4).Inv ∧ ∃ t, step (asking (.eastPutbyte 7) (eastParsing 4)) = .next t) ∧
    (∃ t, step { eastParsing 4 with inbox := [.rst] } = .next t) ∧
    ∃ t, step { eastParsing 4 with inbox := [.memWrite 0xFFFFFFFF 1] } = .next t :=
  ⟨⟨inv_eastParsing 4 (by decide), _, rfl⟩, ⟨_, rfl⟩, _, rfl⟩

theorem witness_NoStepStopsUnderTheInvariant : (sending .icemkii 10).Inv := inv_sending_icemkii 10 (by decide)

theorem witness_EveryRunGoesThrough : (bound .east 64).Inv := inv_bound_east

theorem witness_NoiseBetweenFramesIsSkipped :
    ((bound .east 64).Inv ∧ (bound .east 64).mode = .input ∧ (bound .east 64).complete = false ∧
      (bound .east 64).index = 0 ∧ (bound .east 64).variant = .east ∧ ∀ b ∈ [(0x42 : Byte), 0x1B], b ≠ 0x24) ∧
    ((bound .icemkii 64).Inv ∧ (bound .icemkii 64).variant = .icemkii ∧ ∀ b ∈ [(0x24 : Byte), 0x0E], b ≠ 0x1B) :=
  ⟨⟨inv_bound_east, rfl, rfl, rfl, rfl, by decide⟩, inv_bound_icemkii, rfl, by decide⟩

/-- The least payload, and one that fills the buffer. -/
theorem witness_EastFrameIsParsed :
    (bound .east 2).Inv ∧ (bound .east 2).variant = .east ∧ (bound .east 2).mode = .input ∧
      (bound .east 2).complete = false ∧ (bound .east 2).index = 0 ∧
      (∀ p ∈ [[(0x5A : Byte)], [0x41, 0x42]], 1 ≤ p.length ∧ p.length ≤ (bound .east 2).maxsize.toNat) :=
  ⟨by constructor <;> decide, rfl, rfl, rfl, rfl, by decide⟩

/-- Vector E20: the checksum of `5A` is 0x005A, the trailer 0x015A. -/
theorem witness_EastFrameWithWrongChecksumIsDropped :
    (bound .east 64).Inv ∧ (bound .east 64).variant = .east ∧ (bound .east 64).mode = .input ∧
      (bound .east 64).complete = false ∧ (bound .east 64).index = 0 ∧
      1 ≤ [(0x5A : Byte)].length ∧ [(0x5A : Byte)].length ≤ (bound .east 64).maxsize.toNat ∧
      (0x015A : Half) ≠ eastChecksum [0x5A] :=
  ⟨inv_bound_east, rfl, rfl, rfl, rfl, by decide, by decide, by decide⟩

theorem witness_EastFrameIsProduced :
    (sending .east 0).Inv ∧ (sending .east 0).variant = .east ∧ (sending .east 0).mode = .output ∧
      (sending .east 0).complete = false ∧ (sending .east 0).index = 0 :=
  ⟨inv_sending_east 0 (by decide), rfl, rfl, rfl, rfl⟩

theorem witness_EastRoundTripReproducesThePayload :
    (sending .east 0).Inv ∧ (bound .east 64).Inv ∧ (sending .east 0).variant = .east ∧
        (bound .east 64).variant = .east ∧
      1 ≤ (3 : Word).toNat ∧ (3 : Word).toNat ≤ 65535 ∧ (65535 : Word).toNat ≤ 65535 ∧
      (3 : Word).toNat ≤ (65535 : Word).toNat ∧ (0x20000100 : Addr).toNat + (3 : Word).toNat ≤ 2 ^ 32 ∧
      (0xFFFF0001 : Addr).toNat + (65535 : Word).toNat ≤ 2 ^ 32 :=
  ⟨inv_sending_east 0 (by decide), inv_bound_east, rfl, rfl, by decide, by decide, by decide, by decide, by decide,
    by decide⟩

/-- Vector E26: `5A` with trailer 0x015A, then `77`. -/
theorem witness_EastResynchronisesAfterAWrongChecksum :
    (bound .east 64).Inv ∧ (bound .east 64).variant = .east ∧ (bound .east 64).mode = .input ∧
      (bound .east 64).complete = false ∧ (bound .east 64).index = 0 ∧
      (∀ p ∈ [[(0x5A : Byte)], [0x77]], 1 ≤ p.length ∧ p.length ≤ (bound .east 64).maxsize.toNat) ∧
      (0x015A : Half) ≠ eastChecksum [0x5A] :=
  ⟨inv_bound_east, rfl, rfl, rfl, rfl, by decide, by decide⟩

theorem witness_IceFrameIsParsed :
    (bound .icemkii 4).Inv ∧ (bound .icemkii 4).variant = .icemkii ∧ (bound .icemkii 4).mode = .input ∧
      (bound .icemkii 4).complete = false ∧ (bound .icemkii 4).index = 0 ∧
      (∀ p ∈ [[(0x01 : Byte)], [0x21, 0x43, 0x65, 0x87]],
        1 ≤ p.length ∧ p.length ≤ (bound .icemkii 4).maxsize.toNat) :=
  ⟨by constructor <;> decide, rfl, rfl, rfl, rfl, by decide⟩

/-- Vector I19: the trailer `12 34`. -/
theorem witness_IceFrameWithWrongCrcIsDropped :
    (bound .icemkii 64).Inv ∧ (bound .icemkii 64).variant = .icemkii ∧ (bound .icemkii 64).mode = .input ∧
      (bound .icemkii 64).complete = false ∧ (bound .icemkii 64).index = 0 ∧
      1 ≤ [(0x21 : Byte), 0x43, 0x65, 0x87].length ∧
      [(0x21 : Byte), 0x43, 0x65, 0x87].length ≤ (bound .icemkii 64).maxsize.toNat ∧
      (0x3412 : Half) ≠ crcOf (iceCovered 5 [0x21, 0x43, 0x65, 0x87]) :=
  ⟨inv_bound_icemkii, rfl, rfl, rfl, rfl, by decide, by decide, by decide⟩

theorem witness_IceFrameIsProduced :
    (sending .icemkii 0).Inv ∧ (sending .icemkii 0).variant = .icemkii ∧ (sending .icemkii 0).mode = .output ∧
      (sending .icemkii 0).complete = false ∧ (sending .icemkii 0).index = 0 :=
  ⟨inv_sending_icemkii 0 (by decide), rfl, rfl, rfl, rfl⟩

theorem witness_IceRoundTripReproducesPayloadAndSequence :
    (sending .icemkii 0).Inv ∧ (bound .icemkii 64).Inv ∧ (sending .icemkii 0).variant = .icemkii ∧
      (bound .icemkii 64).variant = .icemkii ∧ 1 ≤ (3 : Word).toNat ∧ (3 : Word).toNat ≤ 0xFFFFFFF5 ∧
      (0xFFFFFFF5 : Word).toNat ≤ 0xFFFFFFF5 ∧ (3 : Word).toNat ≤ (0xFFFFFFF5 : Word).toNat ∧
      (0x20000100 : Addr).toNat + (3 : Word).toNat ≤ 2 ^ 32 ∧
      (0xB : Addr).toNat + (0xFFFFFFF5 : Word).toNat ≤ 2 ^ 32 :=
  ⟨inv_sending_icemkii 0 (by decide), inv_bound_icemkii, rfl, rfl, by decide, by decide, by decide, by decide,
    by decide, by decide⟩

/-- A buffer of exactly 4 bytes, and one of 3. -/
theorem witness_SourceCrcVectorDecodes :
    ((bound .icemkii 4).Inv ∧ 4 ≤ (bound .icemkii 4).maxsize.toNat) ∧
    ((bound .icemkii 3).Inv ∧ (bound .icemkii 3).maxsize.toNat < 4) ∧
    (∀ n ∈ [(3 : Word), 4], (bound .icemkii n).variant = .icemkii ∧ (bound .icemkii n).mode = .input ∧
      (bound .icemkii n).complete = false ∧ (bound .icemkii n).index = 0) := by
  refine ⟨⟨by constructor <;> decide, by decide⟩, ⟨by constructor <;> decide, by decide⟩, fun n hn => ?_⟩
  fin_cases hn <;> exact ⟨rfl, rfl, rfl, rfl⟩

end Sys2Proof.Tests
end

/-! PROOFS. The operation map of R80 (30_encoding.md): the codes that mean the same on both variants, and what any
command decodes to. -/

namespace Sys2Proof

theorem decode_of_op_zero (v : Variant) {p : Ports} (h : p.op = 0) : decode v p = .nop := by
  cases v <;> simp [decode, h]

theorem decode_of_op_six (v : Variant) {p : Ports} (h : p.op = 6) : decode v p = .reserved6 := by
  cases v <;> simp [decode, h]

theorem decode_of_op_seven (v : Variant) {p : Ports} (h : p.op = 7) : decode v p = .reserved7 := by
  cases v <;> simp [decode, h]

/-- Every row of the operation map stands in the column of the instance's own variant. -/
theorem decode_wf (v : Variant) (p : Ports) : (decode v p).wf v = true := by
  unfold decode
  split <;> rfl

/-- The eight values of the three-bit op port, one per row of R80's map. -/
theorem op_cases (op : BitVec 3) :
    op = 0 ∨ op = 1 ∨ op = 2 ∨ op = 3 ∨ op = 4 ∨ op = 5 ∨ op = 6 ∨ op = 7 := by
  revert op
  decide

/-- The operation a command decodes to has the code that is on the op port. -/
theorem decode_op (v : Variant) (p : Ports) : (decode v p).op = p.op := by
  obtain ⟨op, mode, ptr, size, value, seq⟩ := p
  obtain rfl | rfl | rfl | rfl | rfl | rfl | rfl | rfl := op_cases op
  all_goals cases v <;> rfl

/-- Settles O1: codes 0, 6 and 7 by the lemmas for either variant, each other row by evaluating the map at a code with
the operand ports left free, and the last part by `decode_wf` and `decode_op`. -/
theorem operationMapForAllPortValues : Obligations.OperationMapForAllPortValues := by
  intro m a n b q
  refine ⟨fun v => decode_of_op_zero v rfl, ?eastSetbufInput, ?eastSetbufOutput, ?eastPutbyte, ?eastGetbyte,
    ?eastGetsize, ?eastReserved5, ?iceSetbufInput, ?iceSetbufOutput, ?icePutbyte, ?iceGetbyte, ?iceGetsize, ?iceSetseq,
    fun v => decode_of_op_six v rfl, fun v => decode_of_op_seven v rfl, fun v p => ⟨decode_wf v p, decode_op v p⟩⟩
  all_goals rfl

end Sys2Proof

/-! PROOFS. The operations common to both variants (40_dispatch_and_common.md): `NOP` (R108) and the reserved codes
(R109). Each has one rule, stated through the shared updates `respond` and `refuse`. -/

namespace Sys2Proof

theorem decode_of_op_five_of_east {v : Variant} (hv : v = .east) {p : Ports} (h : p.op = 5) :
    decode v p = .reserved5 := by
  simp [decode, hv, h]

end Sys2Proof

namespace Sys2Proof.Machine

theorem exec_nop (s : State) : exec .nop s = .next (respond .inProgress s) := rfl

theorem exec_reserved5_of_east {s : State} (hv : s.variant = .east) :
    exec .reserved5 s = .next (refuse .reservedCode s) :=
  onVariant_self hv _

theorem exec_reserved6 (s : State) : exec .reserved6 s = .next (refuse .reservedCode s) := rfl

theorem exec_reserved7 (s : State) : exec .reserved7 s = .next (refuse .reservedCode s) := rfl

/-- R109 from the ports: a command with a reserved code of the instance's variant is refused. -/
theorem exec_decode_of_reserved_code {s : State} {p : Ports}
    (hp : p.op = 6 ∨ p.op = 7 ∨ (p.op = 5 ∧ s.variant = .east)) :
    exec (decode s.variant p) s = .next (refuse .reservedCode s) := by
  obtain h6 | h7 | ⟨h5, hv⟩ := hp
  · rw [decode_of_op_six _ h6, exec_reserved6]
  · rw [decode_of_op_seven _ h7, exec_reserved7]
  · rw [decode_of_op_five_of_east hv h5, exec_reserved5_of_east hv]

/-- Settles O8: the rule of `NOP`, whose `respond` writes the response and the two event outputs alone. -/
theorem nopOnlyAnswersInProgress : Obligations.NopOnlyAnswersInProgress := exec_nop

/-- Settles O9: each reserved code and each reserved operation is `refuse`, which writes the response and the two event
outputs alone. -/
theorem reservedCodesAreRefusedWithoutEffect : Obligations.ReservedCodesAreRefusedWithoutEffect :=
  ⟨fun _ _ hp => exec_decode_of_reserved_code hp,
    fun s => ⟨fun hv => exec_reserved5_of_east hv, exec_reserved6 s, exec_reserved7 s⟩⟩

end Sys2Proof.Machine

/-! PROOFS. EAST framing (41_east_framer.md): `EAST.SETBUF` (R120), and whole frames put into a parser that is between
frames, which end at the byte `CHK1` with `Complete` or with the frame dropped, ready for the next one (R125, R129). -/

namespace Sys2Proof.Machine

theorem exec_eastSetbuf {s : State} (hv : s.variant = .east) (mode : Mode) (ptr : Addr) (size : Word) :
    exec (.eastSetbuf mode ptr size) s = .next (setBuffer .east mode ptr size s) :=
  onVariant_self hv _

/-- Settles O10: the condition of R120 is `refusedOperands`, so either `SetBuffer` refuses or it binds. -/
theorem eastSetbufFollowsItsRule : Obligations.EastSetbufFollowsItsRule := by
  intro s mode ptr size hv
  obtain ⟨h, e⟩ | ⟨h, e⟩ := setBuffer_cases .east mode ptr size s
  · rw [exec_eastSetbuf hv, e]
    exact congrArg _ (if_pos h).symm
  · rw [exec_eastSetbuf hv, e]
    exact congrArg _ (if_neg h).symm

/-! ## What the bytes of a frame carry -/

/-- The two length bytes of an EAST frame declare its length. -/
theorem eastLength_of_lengthBytes {n : Nat} (hn : n ≤ 65535) :
    eastLength ((byteOf (BitVec.ofNat 16 n) 0).setWidth 32) (byteOf (BitVec.ofNat 16 n) 1) = BitVec.ofNat 32 n := by
  apply BitVec.eq_of_toNat_eq
  simp only [eastLength_toNat, BitVec.toNat_setWidth, byteOf_toNat, BitVec.toNat_ofNat]
  omega

/-- The two check bytes of a frame, put together again. -/
theorem receivedCheck_byteOf (c : Half) : receivedCheck (byteOf c 1) (byteOf c 0) = c := by
  apply BitVec.eq_of_toNat_eq
  simp only [receivedCheck_toNat, byteOf_toNat]
  omega

/-- A frame's length bytes pass the length check of a buffer that holds its payload. -/
theorem lengthValid_ofNat {n : Nat} {m : Word} (h1 : 1 ≤ n) (hn : n ≤ m.toNat) :
    lengthValid (BitVec.ofNat 32 n) m = true := by
  rw [lengthValid, decide_eq_true_eq, BitVec.toNat_ofNat]
  omega

/-! ## One byte at each stage of a parser (R125)

A payload byte is `execEastPutbyte_data`. -/

section
variable {s : State} {v : Byte} (hv : s.variant = .east) (hm : s.mode = .input) (hc : s.complete = false)
include hv hm hc

/-- `EAST.PUTBYTE` in a parser runs the stage that `INDEX` and `ACTSIZE` give. -/
theorem exec_eastPutbyte_stage {st : EastStage} (hst : eastStage s.index.toNat s.actsize.toNat = some st) :
    exec (.eastPutbyte v) s = eastPutStage st v s :=
  execEastPutbyte_stage hv hm hc hst

theorem exec_eastPutbyte_start (hi : s.index = 0) :
    exec (.eastPutbyte Config.eastStart) s =
      .next (accept { s with ok := true, chk := Config.eastSeed, actsize := 0 }) :=
  exec_eastPutbyte_stage (st := .start) hv hm hc (by rw [hi]; rfl)

theorem exec_eastPutbyte_len0 (hi : s.index = 1) :
    exec (.eastPutbyte v) s = .next (accept { s with actsize := v.setWidth 32 }) :=
  exec_eastPutbyte_stage (st := .len0) hv hm hc (by rw [hi]; rfl)

theorem exec_eastPutbyte_len1 (hi : s.index = 2) (hl : lengthValid (eastLength s.actsize v) s.maxsize = true) :
    exec (.eastPutbyte v) s = .next (accept { s with actsize := eastLength s.actsize v }) :=
  (exec_eastPutbyte_stage (st := .len1) hv hm hc (by rw [hi]; rfl)).trans (if_pos hl)

theorem exec_eastPutbyte_stop (hi : s.index.toNat = s.actsize.toNat + 3) :
    exec (.eastPutbyte Config.eastStop) s = .next (accept s) :=
  exec_eastPutbyte_stage (st := .stop) hv hm hc (by rw [hi]; exact eastStage_trailer 0 _)

theorem exec_eastPutbyte_chk0 (hi : s.index.toNat = s.actsize.toNat + 4) :
    exec (.eastPutbyte v) s = .next (accept { s with rxl := v }) :=
  exec_eastPutbyte_stage (st := .chk0) hv hm hc (by rw [hi]; exact eastStage_trailer 1 _)

/-- The last byte of a frame whose trailer is the checksum. -/
theorem exec_eastPutbyte_chk1_of_eq (hi : s.index.toNat = s.actsize.toNat + 5) (h : receivedCheck v s.rxl = s.chk) :
    exec (.eastPutbyte v) s = .next (acceptLast s) :=
  (exec_eastPutbyte_stage (st := .chk1) hv hm hc (by rw [hi]; exact eastStage_trailer 2 _)).trans (if_pos h)

/-- The last byte of a frame whose trailer is not the checksum. -/
theorem exec_eastPutbyte_chk1_of_ne (hi : s.index.toNat = s.actsize.toNat + 5) (h : receivedCheck v s.rxl ≠ s.chk) :
    exec (.eastPutbyte v) s = .next (malformed .checkMismatch s) :=
  (exec_eastPutbyte_stage (st := .chk1) hv hm hc (by rw [hi]; exact eastStage_trailer 2 _)).trans (if_neg h)

end

/-! ## A frame put between frames -/

/-- An EAST parser that waits for a start token, with what the invariant says of its binding: what a frame put into it
needs, and what a dropped frame leaves. -/
structure EastBetweenFrames (s : State) : Prop where
  variant : s.variant = .east
  mode : s.mode = .input
  complete : s.complete = false
  index : s.index = 0
  sizeLimit : s.maxsize.toNat ≤ 65535
  windowInMemory : s.bufptr.toNat + s.maxsize.toNat ≤ Config.addrSpace

theorem State.Inv.eastBetweenFrames {s : State} (h : s.Inv) (hv : s.variant = .east) (hm : s.mode = .input)
    (hc : s.complete = false) (hi : s.index = 0) : EastBetweenFrames s :=
  ⟨hv, hm, hc, hi, by simpa [hv] using h.sizeLimit, h.windowInMemory⟩

/-- The first three bytes of an EAST frame with an `n`-byte payload (R71). -/
def eastHeaderBytes (n : Nat) : List Byte :=
  [Config.eastStart, byteOf (BitVec.ofNat 16 n) 0, byteOf (BitVec.ofNat 16 n) 1]

theorem eastFrameWith_eq_append_last (c : Half) (p : List Byte) :
    eastFrameWith c p = eastHeaderBytes p.length ++ p ++ [Config.eastStop, byteOf c 0] ++ [byteOf c 1] := by
  simp [eastFrameWith, eastHeaderBytes]

/-- The parser after the header of a frame with an `n`-byte payload. -/
def eastHeaderPut (n : Nat) (s : State) : State :=
  { s with
    ok := true, chk := Config.eastSeed, actsize := BitVec.ofNat 32 n, index := 3
    response := inProgressResponse, txc := false, rxc := false }

/-- The parser after the header and the payload of a frame, but for the outputs of its last step. -/
def eastPayloadPut (p : List Byte) (s : State) : State :=
  { s with
    ok := true, chk := eastChecksum p, actsize := BitVec.ofNat 32 p.length, index := 3 + BitVec.ofNat 32 p.length
    mem := s.mem.writeAll s.bufptr.toNat p }

/-- The parser after all bytes but the last of a frame with payload `p` and low check byte `b`. -/
def eastLastByteDue (p : List Byte) (b : Byte) (s : State) : State :=
  { s with
    ok := true, chk := eastChecksum p, actsize := BitVec.ofNat 32 p.length
    index := 3 + BitVec.ofNat 32 p.length + 1 + 1, rxl := b, mem := s.mem.writeAll s.bufptr.toNat p
    response := inProgressResponse, txc := false, rxc := false }

@[simp] theorem eastLastByteDue_variant (p : List Byte) (b : Byte) (s : State) :
    (eastLastByteDue p b s).variant = s.variant := rfl
@[simp] theorem eastLastByteDue_mode (p : List Byte) (b : Byte) (s : State) :
    (eastLastByteDue p b s).mode = s.mode := rfl
@[simp] theorem eastLastByteDue_complete (p : List Byte) (b : Byte) (s : State) :
    (eastLastByteDue p b s).complete = s.complete := rfl
@[simp] theorem eastLastByteDue_bufptr (p : List Byte) (b : Byte) (s : State) :
    (eastLastByteDue p b s).bufptr = s.bufptr := rfl
@[simp] theorem eastLastByteDue_maxsize (p : List Byte) (b : Byte) (s : State) :
    (eastLastByteDue p b s).maxsize = s.maxsize := rfl

theorem eastLastByteDue_actsize {p : List Byte} (hp : p.length ≤ 65535) (b : Byte) (s : State) :
    (eastLastByteDue p b s).actsize.toNat = p.length :=
  Nat.mod_eq_of_lt (by omega)

/-- The payload of a frame is in the window once all bytes but the last are put. -/
theorem eastLastByteDue_window (p : List Byte) (b : Byte) (s : State) :
    (eastLastByteDue p b s).window s.bufptr.toNat p.length = p :=
  window_of_writeAll rfl

theorem eastPayloadPut_index {p : List Byte} (hp : p.length ≤ 65535) (s : State) :
    (eastPayloadPut p s).index.toNat = (eastPayloadPut p s).actsize.toNat + 3 := by
  simp [eastPayloadPut]
  omega

/-- No `INDEX` of a frame that fits wraps: the stop byte and the low check byte each advance it by one. -/
theorem eastLastByteDue_index {p : List Byte} (hp : p.length ≤ 65535) (b : Byte) (s : State) :
    (eastLastByteDue p b s).index.toNat = (eastLastByteDue p b s).actsize.toNat + 5 := by
  simp [eastLastByteDue]
  omega

/-- The header of a frame whose payload fits is taken byte by byte. -/
theorem execAll_eastPut_header {s : State} (hs : EastBetweenFrames s) {n : Nat} (h1 : 1 ≤ n)
    (hn : n ≤ s.maxsize.toNat) :
    execAll ((eastHeaderBytes n).map .eastPutbyte) s =
      some (List.replicate 3 inProgressResponse, eastHeaderPut n s) := by
  obtain ⟨hv, hm, hc, hi, hl, -⟩ := hs
  have hlen := eastLength_of_lengthBytes (hn.trans hl)
  have start := exec_eastPutbyte_start hv hm hc hi
  have len0 := exec_eastPutbyte_len0 (v := byteOf (BitVec.ofNat 16 n) 0)
    (s := accept { s with ok := true, chk := Config.eastSeed, actsize := 0 }) hv hm hc (by simp [hi])
  have len1 := exec_eastPutbyte_len1 (v := byteOf (BitVec.ofNat 16 n) 1)
    (s := accept { accept { s with ok := true, chk := Config.eastSeed, actsize := 0 } with
      actsize := (byteOf (BitVec.ofNat 16 n) 0).setWidth 32 }) hv hm hc (by simp [hi])
    (by simpa [hlen] using lengthValid_ofNat h1 hn)
  refine (execAll_step start (execAll_step len0 (execAll_step len1 (execAll_nil _)))).trans ?_
  simp [eastHeaderPut, hlen, hi, answer, advance, inProgressResponse]

/-- The header and the payload of a frame that fits: the payload is in the window and accumulated. -/
theorem execAll_eastPut_payload {s : State} (hs : EastBetweenFrames s) {p : List Byte} (h1 : 1 ≤ p.length)
    (hp : p.length ≤ s.maxsize.toNat) :
    ∃ r x y, execAll ((eastHeaderBytes p.length ++ p).map .eastPutbyte) s =
      some (List.replicate (3 + p.length) inProgressResponse,
        { eastPayloadPut p s with response := r, txc := x, rxc := y }) := by
  have header := execAll_eastPut_header hs h1 hp
  obtain ⟨hv, hm, hc, -, hl, hw⟩ := hs
  have hn : (eastHeaderPut p.length s).actsize.toNat = p.length := Nat.mod_eq_of_lt (by omega)
  have hi : (eastHeaderPut p.length s).index.toNat = 3 := rfl
  obtain ⟨r, x, y, payload⟩ := execAll_eastPut_data p (s := eastHeaderPut p.length s) hv hm hc (by omega) (by omega)
    (by rw [hn]; exact (Nat.add_le_add_left hp _).trans hw) (by omega)
  refine ⟨r, x, y, ?_⟩
  rw [List.map_append, List.replicate_add]
  exact execAll_append header payload

/-- All bytes of a frame but the last, put between frames, are taken whatever the trailer is. -/
theorem execAll_eastPut_allButLast {s : State} (hs : EastBetweenFrames s) {p : List Byte} (h1 : 1 ≤ p.length)
    (hp : p.length ≤ s.maxsize.toNat) (b : Byte) :
    execAll ((eastHeaderBytes p.length ++ p ++ [Config.eastStop, b]).map .eastPutbyte) s =
      some (List.replicate (p.length + 5) inProgressResponse, eastLastByteDue p b s) := by
  obtain ⟨r, x, y, payload⟩ := execAll_eastPut_payload hs h1 hp
  obtain ⟨hv, hm, hc, -, hl, -⟩ := hs
  have hi := eastPayloadPut_index (hp.trans hl) s
  have hi' : (accept (eastPayloadPut p s)).index.toNat = (accept (eastPayloadPut p s)).actsize.toNat + 4 := by
    simp [eastPayloadPut]
    omega
  have stop := exec_eastPutbyte_stop (s := { eastPayloadPut p s with response := r, txc := x, rxc := y }) hv hm hc hi
  have chk0 := exec_eastPutbyte_chk0 (v := b) (s := accept (eastPayloadPut p s)) hv hm hc hi'
  rw [List.map_append, show p.length + 5 = 3 + p.length + 2 by omega, List.replicate_add]
  exact execAll_append payload (execAll_step stop (execAll_step chk0 (execAll_nil _)))

/-- A frame whose payload fits, put between frames: only its last byte answers `Complete`. -/
theorem execAll_eastFrame {s : State} (hs : EastBetweenFrames s) {p : List Byte} (h1 : 1 ≤ p.length)
    (hp : p.length ≤ s.maxsize.toNat) :
    execAll ((eastFrame p).map .eastPutbyte) s =
      some (parsedResponses (p.length + 6), acceptLast (eastLastByteDue p (byteOf (eastChecksum p) 0) s)) := by
  have last := exec_eastPutbyte_chk1_of_eq (s := eastLastByteDue p (byteOf (eastChecksum p) 0) s) hs.variant hs.mode
    hs.complete (eastLastByteDue_index (hp.trans hs.sizeLimit) _ _) (receivedCheck_byteOf (eastChecksum p))
  rw [eastFrame, eastFrameWith_eq_append_last, List.map_append]
  exact execAll_append (execAll_eastPut_allButLast hs h1 hp _) (execAll_step last (execAll_nil _))

/-- A frame with a wrong trailer, put between frames, is consumed whole and dropped at its last byte. -/
theorem execAll_eastFrameWith_of_ne {s : State} (hs : EastBetweenFrames s) {p : List Byte} {c : Half}
    (h1 : 1 ≤ p.length) (hp : p.length ≤ s.maxsize.toNat) (hne : c ≠ eastChecksum p) :
    execAll ((eastFrameWith c p).map .eastPutbyte) s =
      some (List.replicate (p.length + 6) inProgressResponse,
        malformed .checkMismatch (eastLastByteDue p (byteOf c 0) s)) := by
  have last := exec_eastPutbyte_chk1_of_ne (v := byteOf c 1) (s := eastLastByteDue p (byteOf c 0) s) hs.variant hs.mode
    hs.complete (eastLastByteDue_index (hp.trans hs.sizeLimit) _ _) ((receivedCheck_byteOf c).trans_ne hne)
  rw [eastFrameWith_eq_append_last, List.map_append, List.replicate_succ']
  exact execAll_append (execAll_eastPut_allButLast hs h1 hp _) (execAll_step last (execAll_nil _))

/-- A dropped frame leaves the parser between frames. -/
theorem EastBetweenFrames.malformed_eastLastByteDue {s : State} (hs : EastBetweenFrames s) (why : MalformCause)
    (p : List Byte) (b : Byte) : EastBetweenFrames (malformed why (eastLastByteDue p b s)) where
  variant := by simp [hs.variant]
  mode := by simp [hs.mode]
  complete := by simp [hs.complete]
  index := malformed_index _ _
  sizeLimit := by simpa using hs.sizeLimit
  windowInMemory := by simpa using hs.windowInMemory

/-- Settles O54: the bad frame is dropped at its last byte and not before, so the good frame is put between frames. -/
theorem eastResynchronisesAfterAWrongChecksum : Obligations.EastResynchronisesAfterAWrongChecksum := by
  intro s p q c hinv hv hm hc hi hp1 hp hne hq1 hq
  have hs := hinv.eastBetweenFrames hv hm hc hi
  have hu := hs.malformed_eastLastByteDue .checkMismatch p (byteOf c 0)
  refine ⟨_, _, execAll_eastFrameWith_of_ne hs hp1 hp hne, hu.index, execAll_eastFrame hu hq1 hq, rfl, rfl, ?_, ?_⟩
  · simp [eastLastByteDue_actsize (hq.trans hs.sizeLimit)]
  · exact eastLastByteDue_window q (byteOf (eastChecksum q) 0) (malformed .checkMismatch _)

end Sys2Proof.Machine

/-! PROOFS. ICEMKII framing (42_icemkii_framer.md): `ICE.SETBUF` (R150) and `ICE.SETSEQ` (R151); whole frames put into a
parser that is between frames (R155, R158) and got from a serialiser at its first byte (R156), and the round trip of the
two (R159). -/

namespace Sys2Proof.Machine

/-! ## Operations with one rule in every state -/

theorem exec_iceSetbuf {s : State} (hv : s.variant = .icemkii) (mode : Mode) (ptr : Addr) (size : Word) :
    exec (.iceSetbuf mode ptr size) s = .next (setBuffer .icemkii mode ptr size s) :=
  onVariant_self hv _

theorem exec_iceSetbuf_of_accepted {s : State} (hv : s.variant = .icemkii) {mode : Mode} {ptr : Addr} {size : Word}
    (h : ¬refusedOperands .icemkii mode ptr size) :
    exec (.iceSetbuf mode ptr size) s = .next (bindBuffer mode ptr size s) := by
  rw [exec_iceSetbuf hv, setBuffer_of_accepted h]

theorem exec_iceSetseq {s : State} (hv : s.variant = .icemkii) (q : Half) :
    exec (.iceSetseq q) s = .next (respond .inProgress { s with seq := q }) :=
  onVariant_self hv _

theorem exec_iceGetsize {s : State} (hv : s.variant = .icemkii) :
    exec .iceGetsize s = .next (respondSize (packetSize .icemkii s) s) :=
  onVariant_self hv _

/-- Settles O11: the condition of R150 is `refusedOperands`, so either `SetBuffer` refuses or it binds. -/
theorem iceSetbufFollowsItsRule : Obligations.IceSetbufFollowsItsRule := by
  intro s mode ptr size hv
  rw [exec_iceSetbuf hv]
  obtain ⟨refused, e⟩ | ⟨accepted, e⟩ := setBuffer_cases .icemkii mode ptr size s
  · exact congrArg _ (e.trans (if_pos refused).symm)
  · exact congrArg _ (e.trans (if_neg accepted).symm)

/-- Settles O12: the rule of `ICE.SETSEQ`, whose `respond` writes the response and the two event outputs alone. -/
theorem iceSetseqWritesOnlySeq : Obligations.IceSetseqWritesOnlySeq := fun _ q hv => exec_iceSetseq hv q

/-! ## What the bytes of a frame carry -/

/-- Copying byte `j` of `y` into `x` makes their bits agree there and keeps the others. -/
theorem setByte_byteOf_getLsbD {w : Nat} (x y : BitVec w) (j i : Nat) :
    (setByte x j (byteOf y j)).getLsbD i = if 8 * j ≤ i ∧ i < 8 * j + 8 then y.getLsbD i else x.getLsbD i := by
  rw [setByte_getLsbD]
  split_ifs with h
  · have hin : i - 8 * j < 8 := by omega
    have hi : 8 * j + (i - 8 * j) = i := by omega
    by_cases hw : i < w
    · simp [byteOf, hin, hi, hw]
    · simp [hw, BitVec.getLsbD_of_ge y i (Nat.not_lt.1 hw)]
  · rfl

/-- The two sequence bytes of a header leave nothing of the old sequence number. -/
theorem setByte_seqBytes (x q : Half) : setByte (setByte x 0 (byteOf q 0)) 1 (byteOf q 1) = q := by
  apply BitVec.eq_of_getLsbD_eq
  intro i hi
  rw [setByte_byteOf_getLsbD, setByte_byteOf_getLsbD]
  split_ifs with h1 h0
  · rfl
  · rfl
  · omega

/-- `ACTSIZE` once the three low bytes of the length `l` have arrived. -/
def iceLowLength (l : Word) : Word :=
  setByte (setByte (setByte 0 0 (byteOf l 0)) 1 (byteOf l 1)) 2 (byteOf l 2)

theorem iceLowLength_toNat (l : Word) : (iceLowLength l).toNat = l.toNat % 2 ^ 24 := by
  suffices iceLowLength l = (l.extractLsb' 0 24).setWidth 32 by
    rw [this, BitVec.toNat_setWidth, BitVec.extractLsb'_toNat, Nat.shiftRight_zero]
    omega
  apply BitVec.eq_of_getLsbD_eq
  intro i hi
  simp only [iceLowLength, setByte_byteOf_getLsbD, BitVec.getLsbD_setWidth, BitVec.getLsbD_extractLsb']
  split_ifs with h2 h1 h0
  case neg =>
    have : 24 ≤ i := by omega
    simp [this]
  all_goals
    have : i < 24 := by omega
    simp [this, hi]

/-- The high length byte completes the length. -/
theorem iceLength_iceLowLength (l : Word) : iceLength (iceLowLength l) (byteOf l 3) = l := by
  apply BitVec.eq_of_toNat_eq
  have := l.isLt
  rw [iceLength_toNat, iceLowLength_toNat, byteOf_toNat]
  omega

/-- The bytes of an ICEMKII header before the high length byte, at which the length is checked (R73). -/
def iceLowHeader (q : Half) (l : Word) : List Byte :=
  [Config.iceStart, byteOf q 0, byteOf q 1, byteOf l 0, byteOf l 1, byteOf l 2]

/-- The header of an ICEMKII frame with sequence number `q` and payload length `l` (R73). -/
def iceHeaderBytes (q : Half) (l : Word) : List Byte := iceLowHeader q l ++ [byteOf l 3] ++ [Config.iceToken]

theorem iceCovered_eq_append (q : Half) (p : List Byte) :
    iceCovered q p = iceHeaderBytes q (BitVec.ofNat 32 p.length) ++ p := rfl

@[simp] theorem iceHeaderBytes_length (q : Half) (l : Word) : (iceHeaderBytes q l).length = 8 := rfl

@[simp] theorem iceCovered_length (q : Half) (p : List Byte) : (iceCovered q p).length = 8 + p.length := by
  rw [iceCovered_eq_append, List.length_append, iceHeaderBytes_length]

theorem iceFrameWith_eq_append_last (c q : Half) (p : List Byte) :
    iceFrameWith c q p = iceCovered q p ++ [byteOf c 0] ++ [byteOf c 1] := by
  simp [iceFrameWith]

theorem iceFrame_length (q : Half) (p : List Byte) : (iceFrame q p).length = p.length + 10 := by
  simp [iceFrame, iceFrameWith, iceCovered]

/-- The CRC of a sequence goes on from the CRC of what stands before it. -/
theorem crcOf_append (bs cs : List Byte) : crcOf (bs ++ cs) = cs.foldl crcUpd (crcOf bs) := List.foldl_append

theorem crcOf_iceCovered (q : Half) (p : List Byte) :
    crcOf (iceCovered q p) = p.foldl crcUpd (crcOf (iceHeaderBytes q (BitVec.ofNat 32 p.length))) :=
  crcOf_append _ p

/-! ## A frame put between frames (R155) -/

/-- An ICEMKII parser that waits for a start token, with what the invariant says of its binding. -/
structure IceBetweenFrames (s : State) : Prop where
  variant : s.variant = .icemkii
  mode : s.mode = .input
  complete : s.complete = false
  index : s.index = 0
  sizeLimit : s.maxsize.toNat ≤ 0xFFFFFFF5
  windowInMemory : s.bufptr.toNat + s.maxsize.toNat ≤ Config.addrSpace

theorem State.Inv.iceBetweenFrames {s : State} (h : s.Inv) (hv : s.variant = .icemkii) (hm : s.mode = .input)
    (hc : s.complete = false) (hi : s.index = 0) : IceBetweenFrames s :=
  ⟨hv, hm, hc, hi, by simpa [hv] using h.sizeLimit, h.windowInMemory⟩

/-- The parser `s` after the covered bytes `bs` of a frame, with `q` in `SEQ` and `l` in `ACTSIZE`. -/
def iceParsing (bs : List Byte) (q : Half) (l : Word) (s : State) : State :=
  { s with
    ok := true, chk := crcOf bs, seq := q, actsize := l, index := BitVec.ofNat 32 bs.length
    response := inProgressResponse, txc := false, rxc := false }

@[simp] theorem iceParsing_actsize (bs : List Byte) (q : Half) (l : Word) (s : State) :
    (iceParsing bs q l s).actsize = l := rfl
@[simp] theorem iceParsing_seq (bs : List Byte) (q : Half) (l : Word) (s : State) :
    (iceParsing bs q l s).seq = q := rfl

/-- The parser after the header and the payload of a frame. -/
def icePayloadPut (q : Half) (p : List Byte) (s : State) : State :=
  iceParsing (iceCovered q p) q (BitVec.ofNat 32 p.length) { s with mem := s.mem.writeAll s.bufptr.toNat p }

/-- The parser after all bytes but the last of a frame with low check byte `b`. -/
def iceLastByteDue (q : Half) (p : List Byte) (b : Byte) (s : State) : State :=
  accept { icePayloadPut q p s with rxl := b }

theorem icePayloadPut_index {p : List Byte} (hp : p.length ≤ 0xFFFFFFF5) (q : Half) (s : State) :
    (icePayloadPut q p s).index.toNat = (icePayloadPut q p s).actsize.toNat + 8 := by
  simp [icePayloadPut, iceParsing, iceCovered]
  omega

/-- No `INDEX` of a frame that fits wraps. -/
theorem iceLastByteDue_index {p : List Byte} (hp : p.length ≤ 0xFFFFFFF5) (q : Half) (b : Byte) (s : State) :
    (iceLastByteDue q p b s).index.toNat = (iceLastByteDue q p b s).actsize.toNat + 9 := by
  simp [iceLastByteDue, icePayloadPut, iceParsing, iceCovered]
  omega

/-- The payload of a frame is in the window once all bytes but the last are put. -/
theorem iceLastByteDue_window (q : Half) (p : List Byte) (b : Byte) (s : State) :
    (iceLastByteDue q p b s).window s.bufptr.toNat p.length = p :=
  window_of_writeAll rfl

theorem iceHeader_lt {i : Nat} {st : IceStage} (h : iceHeader i = some st) : i < 8 := by
  by_contra hge
  obtain ⟨k, rfl⟩ := Nat.exists_eq_add_of_le' (Nat.not_lt.1 hge)
  cases h

/-- The stage that a header byte meets is the one its place in the frame gives. -/
theorem iceStage_iceParsing {bs : List Byte} {st : IceStage} (hst : iceHeader bs.length = some st) (q : Half) (l : Word)
    (s : State) : iceStage (iceParsing bs q l s).index.toNat (iceParsing bs q l s).actsize.toNat = some st := by
  have hlt := iceHeader_lt hst
  have hi : (iceParsing bs q l s).index.toNat = bs.length := Nat.mod_eq_of_lt (by omega)
  rw [hi, iceStage_header hlt, hst]

theorem icePutStage_token (s : State) : icePutStage .token Config.iceToken s =
    .next (accept { s with chk := crcUpd s.chk Config.iceToken }) := by
  rw [icePutStage, if_pos rfl]

section
variable {s : State} (hs : IceBetweenFrames s)
include hs

theorem exec_icePutbyte_iceParsing {bs : List Byte} {st : IceStage} (hst : iceHeader bs.length = some st) (v : Byte)
    (q : Half) (l : Word) :
    exec (.icePutbyte v) (iceParsing bs q l s) = icePutStage st v (iceParsing bs q l s) :=
  execIcePutbyte_stage hs.variant hs.mode hs.complete (iceStage_iceParsing hst q l s)

/-- A header byte that its stage takes and accumulates, in front of more bytes. -/
theorem execAll_icePut_headerByte {bs : List Byte} {q q' : Half} {l l' : Word} {v : Byte} {is : List Instr}
    {rs : List (Option Response)} {t : State} (st : IceStage) (hst : iceHeader bs.length = some st)
    (h : icePutStage st v (iceParsing bs q l s) =
      .next (accept { iceParsing bs q l s with seq := q', actsize := l', chk := crcUpd (crcOf bs) v }))
    (rest : execAll is (iceParsing (bs ++ [v]) q' l' s) = some (rs, t)) :
    execAll (.icePutbyte v :: is) (iceParsing bs q l s) = some (inProgressResponse :: rs, t) := by
  have next : accept { iceParsing bs q l s with seq := q', actsize := l', chk := crcUpd (crcOf bs) v } =
      iceParsing (bs ++ [v]) q' l' s := by
    simp [iceParsing, crcOf_append, answer, advance, inProgressResponse, BitVec.ofNat_add]
  exact execAll_step ((exec_icePutbyte_iceParsing hs hst v q l).trans (h.trans (congrArg _ next))) rest

/-- A header is taken byte by byte up to its length check. -/
theorem execAll_icePut_lowHeader (q : Half) (l : Word) :
    execAll ((iceLowHeader q l).map .icePutbyte) s =
      some (List.replicate 6 inProgressResponse, iceParsing (iceLowHeader q l) q (iceLowLength l) s) := by
  have start : exec (.icePutbyte Config.iceStart) s = .next (iceParsing [Config.iceStart] s.seq 0 s) := by
    rw [exec, execIcePutbyte_stage (st := .start) hs.variant hs.mode hs.complete (by rw [hs.index]; rfl)]
    simp [icePutStage, iceParsing, crcOf, answer, advance, inProgressResponse, hs.index]
  refine execAll_step start ?_
  refine execAll_icePut_headerByte hs .seq0 rfl rfl ?_
  refine execAll_icePut_headerByte hs .seq1 rfl rfl ?_
  refine execAll_icePut_headerByte hs .len0 rfl rfl ?_
  refine execAll_icePut_headerByte hs .len1 rfl rfl ?_
  refine execAll_icePut_headerByte hs .len2 rfl rfl ?_
  simp only [iceParsing_seq, iceParsing_actsize, setByte_seqBytes]
  rfl

/-- A header whose length fits the buffer is taken whole. -/
theorem execAll_icePut_header (q : Half) {l : Word} (hl : lengthValid l s.maxsize = true) :
    execAll ((iceHeaderBytes q l).map .icePutbyte) s =
      some (List.replicate 8 inProgressResponse, iceParsing (iceHeaderBytes q l) q l s) := by
  have low := execAll_icePut_lowHeader hs q l
  rw [← iceLength_iceLowLength l] at hl
  rw [iceHeaderBytes, List.append_assoc, List.map_append, show 8 = 6 + 2 from rfl, List.replicate_add]
  refine execAll_append low ?_
  refine execAll_icePut_headerByte hs .len3 rfl (if_pos hl) ?_
  refine execAll_icePut_headerByte hs .token rfl (icePutStage_token _) ?_
  simp only [iceParsing_seq, iceParsing_actsize, iceLength_iceLowLength]
  rfl

/-- A header whose length does not fit the buffer is dropped at its high length byte. -/
theorem execAll_icePut_lowHeader_of_invalid (q : Half) {l : Word} (hl : lengthValid l s.maxsize = false) :
    execAll ((iceLowHeader q l ++ [byteOf l 3]).map .icePutbyte) s =
      some (List.replicate 7 inProgressResponse,
        malformed .badLength (iceParsing (iceLowHeader q l) q (iceLowLength l) s)) := by
  have last := exec_icePutbyte_iceParsing hs (bs := iceLowHeader q l) (st := .len3) rfl (byteOf l 3) q (iceLowLength l)
  rw [← iceLength_iceLowLength l, ← Bool.not_eq_true] at hl
  rw [List.map_append, List.replicate_succ']
  exact execAll_append (execAll_icePut_lowHeader hs q l)
    (execAll_step (last.trans (if_neg hl)) (execAll_nil _))

/-- The header and the payload of a frame that fits: the payload is in the window and accumulated. -/
theorem execAll_icePut_payload (q : Half) {p : List Byte} (h1 : 1 ≤ p.length) (hp : p.length ≤ s.maxsize.toNat) :
    ∃ r x y, execAll ((iceCovered q p).map .icePutbyte) s =
      some (List.replicate (8 + p.length) inProgressResponse,
        { icePayloadPut q p s with response := r, txc := x, rxc := y }) := by
  have header := execAll_icePut_header hs q (lengthValid_ofNat h1 hp)
  obtain ⟨hv, hm, hc, -, hl, hw⟩ := hs
  have hn : (BitVec.ofNat 32 p.length).toNat = p.length := Nat.mod_eq_of_lt (by omega)
  obtain ⟨r, x, y, payload⟩ := execAll_icePut_data p
    (s := iceParsing (iceHeaderBytes q (BitVec.ofNat 32 p.length)) q (BitVec.ofNat 32 p.length) s) hv hm hc
    le_rfl (by simp [iceParsing, hn, Nat.add_comm]) ((Nat.add_le_add_left (hn.trans_le hp) _).trans hw)
    (by simp [iceParsing]; omega)
  refine ⟨r, x, y, ?_⟩
  rw [iceCovered_eq_append, List.map_append, List.replicate_add]
  refine execAll_append header (payload.trans ?_)
  simp [icePayloadPut, iceParsing, crcOf_iceCovered, BitVec.ofNat_add]

/-- All bytes of a frame but the last, put between frames, are taken whatever the trailer is. -/
theorem execAll_icePut_allButLast (q : Half) {p : List Byte} (h1 : 1 ≤ p.length) (hp : p.length ≤ s.maxsize.toNat)
    (b : Byte) :
    execAll ((iceCovered q p ++ [b]).map .icePutbyte) s =
      some (List.replicate (p.length + 9) inProgressResponse, iceLastByteDue q p b s) := by
  obtain ⟨r, x, y, payload⟩ := execAll_icePut_payload hs q h1 hp
  have chk0 : exec (.icePutbyte b) { icePayloadPut q p s with response := r, txc := x, rxc := y } =
      .next (iceLastByteDue q p b s) :=
    execIcePutbyte_stage (st := .chk0) hs.variant hs.mode hs.complete
      (by rw [icePayloadPut_index (hp.trans hs.sizeLimit)]; exact iceStage_trailer 0 _)
  rw [List.map_append, show p.length + 9 = 8 + p.length + 1 by omega, List.replicate_add]
  exact execAll_append payload (execAll_step chk0 (execAll_nil _))

/-- The last byte of a frame meets the comparison of its trailer with its CRC. -/
theorem exec_icePutbyte_iceLastByteDue (c q : Half) {p : List Byte} (hp : p.length ≤ s.maxsize.toNat) :
    exec (.icePutbyte (byteOf c 1)) (iceLastByteDue q p (byteOf c 0) s) =
      .next (if c = crcOf (iceCovered q p) then acceptLast (iceLastByteDue q p (byteOf c 0) s)
        else malformed .checkMismatch (iceLastByteDue q p (byteOf c 0) s)) := by
  have stage : exec (.icePutbyte (byteOf c 1)) (iceLastByteDue q p (byteOf c 0) s) = icePutStage .chk1 (byteOf c 1) _ :=
    execIcePutbyte_stage (st := .chk1) hs.variant hs.mode hs.complete
      (by rw [iceLastByteDue_index (hp.trans hs.sizeLimit)]; exact iceStage_trailer 1 _)
  have check : receivedCheck (byteOf c 1) (iceLastByteDue q p (byteOf c 0) s).rxl = c := receivedCheck_byteOf c
  rw [stage, icePutStage, check, apply_ite Host.Outcome.next]
  rfl

/-- A frame whose payload fits, put between frames: only its last byte answers `Complete`. -/
theorem execAll_icePut_iceFrame (q : Half) {p : List Byte} (h1 : 1 ≤ p.length) (hp : p.length ≤ s.maxsize.toNat) :
    execAll ((iceFrame q p).map .icePutbyte) s =
      some (parsedResponses (p.length + 10),
        acceptLast (iceLastByteDue q p (byteOf (crcOf (iceCovered q p)) 0) s)) := by
  have last := exec_icePutbyte_iceLastByteDue hs (crcOf (iceCovered q p)) q hp
  rw [if_pos rfl] at last
  rw [iceFrame, iceFrameWith_eq_append_last, List.map_append]
  exact execAll_append (execAll_icePut_allButLast hs q h1 hp _) (execAll_step last (execAll_nil _))

/-- A frame with a wrong trailer, put between frames, is consumed whole and dropped at its last byte. -/
theorem execAll_icePut_iceFrameWith_of_ne {c q : Half} {p : List Byte} (h1 : 1 ≤ p.length)
    (hp : p.length ≤ s.maxsize.toNat) (hne : c ≠ crcOf (iceCovered q p)) :
    execAll ((iceFrameWith c q p).map .icePutbyte) s =
      some (List.replicate (p.length + 10) inProgressResponse,
        malformed .checkMismatch (iceLastByteDue q p (byteOf c 0) s)) := by
  have last := exec_icePutbyte_iceLastByteDue hs c q hp
  rw [if_neg hne] at last
  rw [iceFrameWith_eq_append_last, List.map_append, List.replicate_succ']
  exact execAll_append (execAll_icePut_allButLast hs q h1 hp _) (execAll_step last (execAll_nil _))

end

/-! ## The vector of the source (R158) -/

/-- The payload of the source's vector, sent with sequence number 5. -/
def sourcePayload : List Byte := [0x21, 0x43, 0x65, 0x87]

/-- The bytes of the vector up to its length check. -/
theorem iceLowHeader_sourceVector :
    iceLowHeader 5 4 ++ [byteOf (4 : Word) 3] = [0x1B, 0x05, 0x00, 0x04, 0x00, 0x00, 0x00] := by
  decide

theorem crcOf_sourceVector : crcOf (iceCovered 5 sourcePayload) = 0xC3C2 := by decide

/-- The bytes of the vector with the trailer value `c`. -/
theorem iceFrameWith_sourcePayload (c : Half) : iceFrameWith c 5 sourcePayload =
    [0x1B, 0x05, 0x00, 0x04, 0x00, 0x00, 0x00] ++ [0x0E, 0x21, 0x43, 0x65, 0x87] ++ [byteOf c 0, byteOf c 1] := rfl

/-- Settles O59: the vector is the frame of a payload of four bytes, its trailer the CRC; so it is parsed, dropped for
another trailer, and dropped at its length when the buffer is smaller. -/
theorem sourceCrcVectorDecodes : Obligations.SourceCrcVectorDecodes := by
  intro s hinv hv hm hc hi head rest
  have hs := hinv.iceBetweenFrames hv hm hc hi
  refine ⟨fun hfit => ⟨?parsed, ?dropped⟩, fun hshort => ?droppedAtLength⟩
  case parsed =>
    have parsed := execAll_icePut_iceFrame hs 5 (p := sourcePayload) (by decide) hfit
    rw [iceFrame, crcOf_sourceVector, iceFrameWith_sourcePayload] at parsed
    exact ⟨_, parsed, rfl, rfl⟩
  case dropped =>
    have dropped := execAll_icePut_iceFrameWith_of_ne hs (c := 0xFFFF) (q := 5) (p := sourcePayload) (by decide) hfit
      (by rw [crcOf_sourceVector]; decide)
    rw [iceFrameWith_sourcePayload] at dropped
    exact ⟨_, dropped, rfl, rfl, rfl, hc⟩
  case droppedAtLength =>
    have hl : lengthValid 4 s.maxsize = false := by
      simp [lengthValid]
      omega
    have dropped := execAll_icePut_lowHeader_of_invalid hs 5 hl
    rw [iceLowHeader_sourceVector] at dropped
    exact ⟨_, dropped, rfl, rfl, rfl, hc⟩

/-! ## A frame got from a serialiser (R156) -/

/-- An ICEMKII serialiser at the first byte of its frame, its window inside the memory. -/
structure IceAtFirstByte (s : State) : Prop where
  variant : s.variant = .icemkii
  mode : s.mode = .output
  complete : s.complete = false
  index : s.index = 0
  sizeLimit : s.actsize.toNat ≤ 0xFFFFFFF5
  windowInMemory : s.bufptr.toNat + s.actsize.toNat ≤ Config.addrSpace

/-- The payload that a serialiser sends: the contents of its window. -/
def State.boundPayload (s : State) : List Byte := s.window s.bufptr.toNat s.actsize.toNat

/-- The CRC that a serialiser sends. -/
def State.boundCrc (s : State) : Half := crcOf (iceCovered s.seq s.boundPayload)

@[simp] theorem boundPayload_length (s : State) : s.boundPayload.length = s.actsize.toNat := window_length _ _ _

theorem iceCovered_boundPayload (s : State) :
    iceCovered s.seq s.boundPayload = iceHeaderBytes s.seq s.actsize ++ s.boundPayload := by
  rw [iceCovered_eq_append, boundPayload_length, BitVec.ofNat_toNat, BitVec.setWidth_eq]

/-- The response that carries the frame byte `b` when it is not the last. -/
def sentByte (b : Byte) : Option Response := some ⟨.inProgress, b, 0⟩

/-- The serialiser `s` after the covered bytes `bs` of its frame. -/
def iceSending (bs : List Byte) (s : State) : State :=
  { s with
    chk := crcOf bs, index := BitVec.ofNat 32 bs.length
    response := bs.getLast?.bind sentByte, txc := false, rxc := false }

/-- The serialiser after the header and the payload of its frame, but for the outputs of its last step. -/
def icePayloadSent (s : State) : State :=
  { s with chk := s.boundCrc, index := 8 + s.actsize }

/-- The serialiser when the last byte of its frame is due. -/
def iceLastByteToSend (s : State) : State := emit (byteOf s.boundCrc 0) (icePayloadSent s)

section
variable {s : State} (hs : IceAtFirstByte s)
include hs

/-- A header byte, sent and accumulated, in front of more bytes. -/
theorem execAll_iceGet_headerByte {bs : List Byte} {b : Byte} {is : List Instr} {rs : List (Option Response)}
    {t : State} (st : IceStage) (hst : iceHeader bs.length = some st)
    (h : iceGetStage st (iceSending bs s) = .next (iceEmit b (iceSending bs s)))
    (rest : execAll is (iceSending (bs ++ [b]) s) = some (rs, t)) :
    execAll (.iceGetbyte :: is) (iceSending bs s) = some (sentByte b :: rs, t) := by
  have hi : (iceSending bs s).index.toNat = bs.length := Nat.mod_eq_of_lt (by have := iceHeader_lt hst; omega)
  have stage : exec .iceGetbyte (iceSending bs s) = iceGetStage st (iceSending bs s) :=
    execIceGetbyte_stage hs.variant hs.mode hs.complete (by rw [hi, iceStage_header (iceHeader_lt hst), hst])
  have next : iceEmit b (iceSending bs s) = iceSending (bs ++ [b]) s := by
    simp [iceSending, crcOf_append, answer, advance, sentByte, BitVec.ofNat_add]
  have response : (iceSending (bs ++ [b]) s).response = sentByte b := by simp [iceSending]
  rw [← response]
  exact execAll_step (stage.trans (h.trans (congrArg _ next))) rest

/-- The header of a frame is sent byte by byte. -/
theorem execAll_iceGet_header :
    execAll (List.replicate 8 .iceGetbyte) s =
      some ((iceHeaderBytes s.seq s.actsize).map sentByte, iceSending (iceHeaderBytes s.seq s.actsize) s) := by
  have start : exec .iceGetbyte s = .next (iceSending [Config.iceStart] s) := by
    rw [exec, execIceGetbyte_stage (st := .start) hs.variant hs.mode hs.complete (by rw [hs.index]; rfl)]
    simp [iceGetStage, iceSending, crcOf, answer, advance, sentByte, hs.index]
  refine execAll_step start ?_
  refine execAll_iceGet_headerByte hs .seq0 rfl rfl ?_
  refine execAll_iceGet_headerByte hs .seq1 rfl rfl ?_
  refine execAll_iceGet_headerByte hs .len0 rfl rfl ?_
  refine execAll_iceGet_headerByte hs .len1 rfl rfl ?_
  refine execAll_iceGet_headerByte hs .len2 rfl rfl ?_
  refine execAll_iceGet_headerByte hs .len3 rfl rfl ?_
  refine execAll_iceGet_headerByte hs .token rfl rfl ?_
  rfl

/-- The header and the payload of a frame are sent. -/
theorem execAll_iceGet_payload :
    ∃ r x y, execAll (List.replicate (8 + s.actsize.toNat) .iceGetbyte) s =
      some ((iceCovered s.seq s.boundPayload).map sentByte,
        { icePayloadSent s with response := r, txc := x, rxc := y }) := by
  have header := execAll_iceGet_header hs
  obtain ⟨hv, hm, hc, -, hl, hw⟩ := hs
  obtain ⟨r, x, y, payload⟩ := execAll_iceGet_data s.actsize.toNat
    (s := iceSending (iceHeaderBytes s.seq s.actsize) s) hv hm hc
    le_rfl (Nat.add_comm 8 s.actsize.toNat).le hw (show 8 + s.actsize.toNat < 2 ^ 32 by omega)
  have window : (iceSending (iceHeaderBytes s.seq s.actsize) s).window (s.bufptr.toNat + (8 - 8)) s.actsize.toNat =
      s.boundPayload := rfl
  have hcrc : s.boundPayload.foldl crcUpd (crcOf (iceHeaderBytes s.seq s.actsize)) = s.boundCrc := by
    rw [State.boundCrc, iceCovered_boundPayload, crcOf_append]
  have hindex : 8 + BitVec.ofNat 32 s.actsize.toNat = 8 + s.actsize := by
    rw [BitVec.ofNat_toNat, BitVec.setWidth_eq]
  refine ⟨r, x, y, ?_⟩
  rw [icePayloadSent, ← hcrc, ← hindex, iceCovered_boundPayload, ← window, List.replicate_add, List.map_append]
  exact execAll_append header payload

/-- A serialiser sends the frame of `SEQ` and its window's contents: only the last byte comes with `Complete`. -/
theorem execAll_iceGet_iceFrame :
    execAll (List.replicate (s.actsize.toNat + 10) .iceGetbyte) s =
      some (sentResponses (iceFrame s.seq s.boundPayload), emitLast (byteOf s.boundCrc 1) (iceLastByteToSend s)) := by
  obtain ⟨r, x, y, payload⟩ := execAll_iceGet_payload hs
  obtain ⟨hv, hm, hc, -, hl, -⟩ := hs
  have hi : (icePayloadSent s).index.toNat = s.actsize.toNat + 8 := by
    simp [icePayloadSent]
    omega
  have hi' : (iceLastByteToSend s).index.toNat = s.actsize.toNat + 9 := by
    simp [iceLastByteToSend, icePayloadSent]
    omega
  have chk0 : exec .iceGetbyte { icePayloadSent s with response := r, txc := x, rxc := y } =
      .next (iceLastByteToSend s) :=
    execIceGetbyte_stage (st := .chk0) hv hm hc (by rw [hi]; exact iceStage_trailer 0 _)
  have chk1 : exec .iceGetbyte (iceLastByteToSend s) = .next (emitLast (byteOf s.boundCrc 1) (iceLastByteToSend s)) :=
    execIceGetbyte_stage (st := .chk1) hv hm hc (by rw [hi']; exact iceStage_trailer 1 _)
  rw [iceFrame, iceFrameWith_eq_append_last, sentResponses_append_last, List.map_append, List.append_assoc,
    show s.actsize.toNat + 10 = 8 + s.actsize.toNat + 2 by omega, List.replicate_add]
  exact execAll_append payload (execAll_step chk0 (execAll_step chk1 (execAll_nil _)))

end

/-! ## The round trip (R159) -/

/-- R208 has no ground to refuse a size within the limit, a window inside the memory, and an output of one byte or
more. -/
theorem not_refusedOperands_of_fits {v : Variant} {mode : Mode} {ptr : Addr} {size : Word}
    (hl : size.toNat ≤ Config.limit v) (hw : ptr.toNat + size.toNat ≤ Config.addrSpace)
    (h1 : mode = .output → 1 ≤ size.toNat) :
    ¬refusedOperands v mode ptr size := by
  rintro (hlimit | hspace | ⟨hm, rfl⟩)
  · exact hlimit.not_ge hl
  · exact hspace.not_ge hw
  · exact absurd (h1 hm) (by decide)

/-- Settles O58: the first side, bound for output, sends the frame of its sequence number and its window, and the
second, bound for input, is between frames and parses it. -/
theorem iceRoundTripReproducesPayloadAndSequence : Obligations.IceRoundTripReproducesPayloadAndSequence := by
  intro a b pa pb n m _ _ hva hvb hn1 hnl hml hnm hpa hpb
  have output := exec_iceSetbuf_of_accepted hva (not_refusedOperands_of_fits (mode := .output) hnl hpa fun _ => hn1)
  have input := exec_iceSetbuf_of_accepted hvb (not_refusedOperands_of_fits (mode := .input) hml hpb nofun)
  have sent := execAll_iceGet_iceFrame (s := bindBuffer .output pa n a) ⟨hva, rfl, rfl, rfl, hnl, hpa⟩
  have hlen : (a.window pa.toNat n.toNat).length = n.toNat := window_length _ _ _
  have parsed := execAll_icePut_iceFrame (s := bindBuffer .input pb m b) ⟨hvb, rfl, rfl, rfl, hml, hpb⟩ a.seq
    (p := a.window pa.toNat n.toNat) (hn1.trans_eq hlen.symm) (hlen.trans_le hnm)
  rw [hlen] at parsed
  refine ⟨_, _, _, _, iceFrame a.seq (a.window pa.toNat n.toNat), output, input,
    (iceFrame_length _ _).trans (congrArg (· + 10) hlen), sent, parsed, ?window, rfl, _, exec_iceGetsize hvb, ?size⟩
  case window =>
    have window := iceLastByteDue_window a.seq (a.window pa.toNat n.toNat)
      (byteOf (crcOf (iceCovered a.seq (a.window pa.toNat n.toNat))) 0) (bindBuffer .input pb m b)
    rwa [hlen] at window
  case size =>
    have hsize : BitVec.ofNat 32 (a.window pa.toNat n.toNat).length = n := by
      rw [hlen, BitVec.ofNat_toNat, BitVec.setWidth_eq]
    exact congrArg (fun l => some (Response.mk .inProgress 0 l)) hsize

end Sys2Proof.Machine

/-! PROOFS. The CRC (43_crc16.md): the table form of the update is the bit-serial loop started from the running value
XOR the byte (R192). Each round of the loop is linear over XOR and sends only 0 to 0, hence R196 and R194. -/

namespace Sys2Proof.Machine

/-! ## Two bytes as a 16-bit value -/

theorem receivedCheck_eq_xor (v rxl : Byte) : receivedCheck v rxl = v.setWidth 16 <<< 8 ^^^ rxl.setWidth 16 := by
  ext i hi
  obtain low | high := Nat.lt_or_ge i 8
  · simp [receivedCheck, low]
  · simp [receivedCheck, high]

theorem eq_receivedCheck_iff {c : Half} {v rxl : Byte} :
    c = receivedCheck v rxl ↔ rxl = byteOf c 0 ∧ v = byteOf c 1 := by
  constructor
  · rintro rfl
    constructor
    all_goals
      apply BitVec.eq_of_toNat_eq
      rw [byteOf_toNat, receivedCheck_toNat]
      omega
  · rintro ⟨rfl, rfl⟩
    exact (receivedCheck_byteOf c).symm

/-! ## The bit-serial loop (R192) -/

theorem crcBit_of_even {x : Half} (h : x.getLsbD 0 = false) : crcBit x = x >>> 1 := if_neg (by rw [h]; decide)

theorem crcBit_of_odd {x : Half} (h : x.getLsbD 0 = true) : crcBit x = (x >>> 1) ^^^ Config.crcPoly := if_pos h

/-- A round as one XOR, with 0 where no 1 is shifted out. -/
theorem crcBit_eq_xor (x : Half) : crcBit x = (x >>> 1) ^^^ if x.getLsbD 0 then Config.crcPoly else 0 := by
  cases h : x.getLsbD 0
  · rw [crcBit_of_even h]
    exact BitVec.xor_zero.symm
  · exact crcBit_of_odd h

theorem crcBit_xor (x y : Half) : crcBit (x ^^^ y) = crcBit x ^^^ crcBit y := by
  have shiftedOut : (if (x ^^^ y).getLsbD 0 then Config.crcPoly else 0) =
      (if x.getLsbD 0 then Config.crcPoly else 0) ^^^ if y.getLsbD 0 then Config.crcPoly else 0 := by
    rw [BitVec.getLsbD_xor]
    cases x.getLsbD 0 <;> cases y.getLsbD 0 <;> rfl
  simp only [crcBit_eq_xor, shiftedOut, BitVec.ushiftRight_xor_distrib]
  ac_rfl

/-- Only 0 goes to 0: a 1 shifted out puts bit 15 of the polynomial where the shift has left a 0. -/
theorem crcBit_eq_zero_iff {x : Half} : crcBit x = 0 ↔ x = 0 := by
  constructor
  · intro h
    cases hx : x.getLsbD 0 with
    | false =>
      rw [crcBit_of_even hx] at h
      have even : x.toNat % 2 = 0 := by simpa [BitVec.getLsbD, Nat.testBit_zero] using hx
      bv_omega
    | true =>
      rw [crcBit_of_odd hx] at h
      have top : ((x >>> 1) ^^^ Config.crcPoly).getLsbD 15 = true := by simp
      rw [h] at top
      exact absurd top (by decide)
  · rintro rfl
    decide

theorem crcByte_eq_iterate (x : Half) : crcByte x = crcBit^[8] x := rfl

theorem crcByte_xor (x y : Half) : crcByte (x ^^^ y) = crcByte x ^^^ crcByte y := by simp only [crcByte, crcBit_xor]

theorem crcByte_eq_zero_iff {x : Half} : crcByte x = 0 ↔ x = 0 := by simp only [crcByte, crcBit_eq_zero_iff]

/-- A byte shifted left by `k` places comes back in `k` rounds, which shift out zeros only. -/
theorem crcBit_iterate_shiftLeft (v : Byte) {k : Nat} (hk : k ≤ 8) :
    crcBit^[k] (v.setWidth 16 <<< k) = v.setWidth 16 := by
  induction k with
  | zero => exact BitVec.shiftLeft_zero _
  | succ k ih =>
    have even : (v.setWidth 16 <<< (k + 1)).getLsbD 0 = false := by simp
    have shift : (v.setWidth 16 <<< (k + 1)) >>> 1 = v.setWidth 16 <<< k := by
      ext i hi
      obtain inside | top := Nat.lt_or_ge (i + 1) 16
      · simp [Nat.add_comm 1 i, inside]
      · have beyond : 8 ≤ i - k := by omega
        simp [Nat.add_comm 1 i, BitVec.getLsbD_of_ge v _ beyond]
    rw [Function.iterate_succ_apply, crcBit_of_even even, shift, ih (by omega)]

/-- The loop moves a high byte down. -/
theorem crcByte_highByte (v : Byte) : crcByte (v.setWidth 16 <<< 8) = v.setWidth 16 :=
  crcBit_iterate_shiftLeft v le_rfl

/-- The loop splits at the byte: the high byte moves down, and the low byte's share is its table entry. -/
theorem crcByte_eq_shift_xor_crcTable (x : Half) : crcByte x = (x >>> 8) ^^^ crcTable (byteOf x 0) := by
  have high : (byteOf x 1).setWidth 16 = x >>> 8 := by
    apply BitVec.eq_of_toNat_eq
    rw [BitVec.toNat_setWidth, byteOf_toNat, BitVec.toNat_ushiftRight, Nat.shiftRight_eq_div_pow]
    omega
  calc
    crcByte x = crcByte ((byteOf x 1).setWidth 16 <<< 8) ^^^ crcByte ((byteOf x 0).setWidth 16) := by
      rw [← crcByte_xor, ← receivedCheck_eq_xor, receivedCheck_byteOf]
    _ = (x >>> 8) ^^^ crcTable (byteOf x 0) := by rw [crcByte_highByte, high, crcTable]

/-! ## The update (R191) -/

/-- The table form of the update is the loop: the byte changes nothing of the high half. -/
theorem crcUpd_eq_crcByte (c : Half) (b : Byte) : crcUpd c b = crcByte (c ^^^ b.setWidth 16) := by
  have high : (c ^^^ b.setWidth 16) >>> 8 = c >>> 8 := by
    ext i hi
    simp
  rw [crcByte_eq_shift_xor_crcTable, high]
  rfl

theorem crcUpd_xor (c1 c2 : Half) (b1 b2 : Byte) :
    crcUpd (c1 ^^^ c2) (b1 ^^^ b2) = crcUpd c1 b1 ^^^ crcUpd c2 b2 := by
  simp only [crcUpd_eq_crcByte, ← crcByte_xor, BitVec.setWidth_xor]
  ac_rfl

/-- Two updates are the loop twice, started from the running value XOR the two bytes as a 16-bit value: the second
byte goes in eight rounds early as the high byte. -/
theorem crcUpd_crcUpd (c : Half) (b0 b1 : Byte) :
    crcUpd (crcUpd c b0) b1 = crcByte (crcByte (c ^^^ receivedCheck b1 b0)) := by
  calc
    crcUpd (crcUpd c b0) b1 = crcByte (crcByte (c ^^^ b0.setWidth 16) ^^^ crcByte (b1.setWidth 16 <<< 8)) := by
      rw [crcUpd_eq_crcByte, crcUpd_eq_crcByte, crcByte_highByte]
    _ = crcByte (crcByte (c ^^^ receivedCheck b1 b0)) := by
      rw [← crcByte_xor, receivedCheck_eq_xor]
      ac_rfl

theorem crcUpd_crcUpd_eq_zero_iff (c : Half) (b0 b1 : Byte) :
    crcUpd (crcUpd c b0) b1 = 0 ↔ b0 = byteOf c 0 ∧ b1 = byteOf c 1 := by
  rw [crcUpd_crcUpd, crcByte_eq_zero_iff, crcByte_eq_zero_iff, ← eq_receivedCheck_iff]
  exact BitVec.xor_eq_zero_iff

/-! ## The obligations -/

/-- Settles O46: the loop `crcByte` is the round `crcBit` eight times. -/
theorem tableCrcEqualsBitSerialCrc : Obligations.TableCrcEqualsBitSerialCrc :=
  fun c b => (crcUpd_eq_crcByte c b).trans (crcByte_eq_iterate _)

/-- Settles O47: the loop sends only 0 to 0, so two bytes end at 0 exactly when they make up the running value; the
CRC's own two bytes do. -/
theorem crcResidueIsZeroForItsOwnBytesOnly : Obligations.CrcResidueIsZeroForItsOwnBytesOnly := by
  refine ⟨fun m => ?residue, crcUpd_crcUpd_eq_zero_iff⟩
  rw [crcOf_append]
  exact (crcUpd_crcUpd_eq_zero_iff _ _ _).mpr ⟨rfl, rfl⟩

/-- Settles O48: the loop is linear, and so is the value it starts from. -/
theorem crcUpdateIsLinearOverXor : Obligations.CrcUpdateIsLinearOverXor := ⟨crcUpd_xor, by decide⟩

/-- Settles O45, by evaluating the update and the CRC at the listed values. -/
theorem crcUnitValues : Obligations.CrcUnitValues := by
  unfold Obligations.CrcUnitValues
  decide

end Sys2Proof.Machine

/-! PROOFS. Refusals, malformed bytes and events (60_exceptions.md). What an operation can answer is said once, by the
inductive `OpAnswer`: it is refused for one of the four causes of R202, or it is a byte put, a byte got, or another
operation carried out. `exec_answer` shows that nothing else happens, and the rules of R202 to R211 are read off it. -/

namespace Sys2Proof.Machine

/-! ## The kinds of operations, and the four causes of a refusal (R202) -/

/-- The operation is a `PUTBYTE` of the byte `v`, of either variant. -/
def isPutbyte (v : Byte) (i : Instr) : Prop := i = .eastPutbyte v ∨ i = .icePutbyte v

/-- The operation is a `GETBYTE` of either variant. -/
def isGetbyte (i : Instr) : Prop := i = .eastGetbyte ∨ i = .iceGetbyte

/-- The operation is asked of `s` with a cause for a refusal, `X1` to `X4` of R202. -/
def State.refuses (s : State) (i : Instr) : Prop :=
  (i = .reserved5 ∨ i = .reserved6 ∨ i = .reserved7) ∨
  (∃ m a n, (i = .eastSetbuf m a n ∨ i = .iceSetbuf m a n) ∧ refusedOperands s.variant m a n) ∨
  ((∃ v, isPutbyte v i) ∧ s.mode = .output) ∨
  (isGetbyte i ∧ s.mode = .input) ∨
  (((∃ v, isPutbyte v i) ∨ isGetbyte i) ∧ s.complete = true)

/-- `INDEX` is at the last byte of the frame (R101). -/
def State.atLastByte (s : State) : Prop := s.index.toNat + 1 = s.actsize.toNat + Config.ovh s.variant

/-- `v` is the last byte of a valid frame: it stands last, and the received check value is the running one (R28). -/
def State.endsValidFrame (s : State) (v : Byte) : Prop := s.atLastByte ∧ receivedCheck v s.rxl = s.chk

theorem refuses_putbyte {s : State} {v : Byte} {i : Instr} (hi : isPutbyte v i) :
    s.refuses i ↔ s.mode = .output ∨ s.complete = true := by
  obtain rfl | rfl := hi <;> simp [State.refuses, isPutbyte, isGetbyte]

theorem refuses_getbyte {s : State} {i : Instr} (hi : isGetbyte i) :
    s.refuses i ↔ s.mode = .input ∨ s.complete = true := by
  obtain rfl | rfl := hi <;> simp [State.refuses, isPutbyte, isGetbyte]

theorem not_isPutbyte_of_isGetbyte {v : Byte} {i : Instr} (hi : isGetbyte i) : ¬isPutbyte v i := by
  obtain rfl | rfl := hi <;> simp [isPutbyte]

theorem isPutbyte_unique {v w : Byte} {i : Instr} (hv : isPutbyte v i) (hw : isPutbyte w i) : v = w := by
  obtain rfl | rfl := hv <;> simpa [isPutbyte] using hw

/-! ## What an operation can answer -/

/-- What the parser answers to a byte that it does not refuse; `last` says that it ends a valid frame. -/
inductive PutAnswer (last : Prop) (s t : State) : Prop
  | goesOn {u : State} (hl : ¬last) (ht : t = accept u) (hi : u.index = s.index)
  | dropped (hl : ¬last) (why : MalformCause) (ht : t = malformed why s)
  | completes (hl : last) (ht : t = acceptLast s)

/-- What the serialiser answers when it does not refuse; `last` says that the byte due is the frame's last. -/
inductive GetAnswer (last : Prop) (s t : State) : Prop
  | goesOn {b : Byte} {u : State} (hl : ¬last) (ht : t = emit b u)
  | completes (hl : last) (ht : t = emitLast (byteOf s.chk 1) s)

/-- Everything that the operation `i`, executed in `s`, can answer. -/
inductive OpAnswer (i : Instr) (s t : State) : Prop
  | refused (hr : s.refuses i) (ht : t = answer ⟨.error, 0, 0⟩ false false s)
  | put {v : Byte} (hi : isPutbyte v i) (hm : s.mode = .input) (hc : s.complete = false)
      (ht : PutAnswer (s.endsValidFrame v) s t)
  | got (hi : isGetbyte i) (hm : s.mode = .output) (hc : s.complete = false) (ht : GetAnswer s.atLastByte s t)
  | other {n : Word} {u : State} (hp : ∀ v, ¬isPutbyte v i) (hg : ¬isGetbyte i) (hr : ¬s.refuses i)
      (ht : t = answer ⟨.inProgress, 0, n⟩ false false u)

/-! ## One stage -/

/-- The last stage of the EAST table stands at the last byte of the frame. -/
theorem eastStage_eq_chk1_iff {s : State} (hv : s.variant = .east) {st : EastStage}
    (hst : eastStage s.index.toNat s.actsize.toNat = some st) : st = .chk1 ↔ s.atLastByte := by
  have h := eastStage_at hst
  rw [State.atLastByte, hv, ovh_east]
  cases st <;> simp only [eastStageAt] at h <;> simp <;> omega

/-- The last stage of the ICEMKII table stands at the last byte of the frame. -/
theorem iceStage_eq_chk1_iff {s : State} (hv : s.variant = .icemkii) {st : IceStage}
    (hst : iceStage s.index.toNat s.actsize.toNat = some st) : st = .chk1 ↔ s.atLastByte := by
  have h := iceStage_at hst
  rw [State.atLastByte, hv, ovh_icemkii]
  cases st <;> simp only [iceStageAt] at h <;> simp <;> omega

theorem eastPutStage_answer {st : EastStage} {v : Byte} {s t : State} (h : eastPutStage st v s = .next t) :
    PutAnswer (st = .chk1 ∧ receivedCheck v s.rxl = s.chk) s t := by
  cases st <;> simp only [eastPutStage] at h
  case len0 | chk0 =>
    cases h
    exact .goesOn (by simp) rfl rfl
  case data =>
    obtain ⟨-, h⟩ := atPayload_eq_next.1 h
    cases h
    exact .goesOn (by simp) rfl rfl
  case start | len1 | stop =>
    split_ifs at h <;> cases h
    · exact .goesOn (by simp) rfl rfl
    · exact .dropped (by simp) _ rfl
  case chk1 =>
    split_ifs at h with hc <;> cases h
    · exact .completes ⟨rfl, hc⟩ rfl
    · exact .dropped (fun hl => hc hl.2) _ rfl

theorem icePutStage_answer {st : IceStage} {v : Byte} {s t : State} (h : icePutStage st v s = .next t) :
    PutAnswer (st = .chk1 ∧ receivedCheck v s.rxl = s.chk) s t := by
  cases st <;> simp only [icePutStage] at h
  case seq0 | seq1 | len0 | len1 | len2 | chk0 =>
    cases h
    exact .goesOn (by simp) rfl rfl
  case data =>
    obtain ⟨-, h⟩ := atPayload_eq_next.1 h
    cases h
    exact .goesOn (by simp) rfl rfl
  case start | len3 | token =>
    split_ifs at h <;> cases h
    · exact .goesOn (by simp) rfl rfl
    · exact .dropped (by simp) _ rfl
  case chk1 =>
    split_ifs at h with hc <;> cases h
    · exact .completes ⟨rfl, hc⟩ rfl
    · exact .dropped (fun hl => hc hl.2) _ rfl

theorem eastGetStage_answer {st : EastStage} {s t : State} (h : eastGetStage st s = .next t) :
    GetAnswer (st = .chk1) s t := by
  cases st <;> simp only [eastGetStage] at h
  case data =>
    obtain ⟨-, h⟩ := atPayload_eq_next.1 h
    cases h
    exact .goesOn (by simp) rfl
  case chk1 =>
    cases h
    exact .completes rfl rfl
  all_goals
    cases h
    exact .goesOn (by simp) rfl

theorem iceGetStage_answer {st : IceStage} {s t : State} (h : iceGetStage st s = .next t) :
    GetAnswer (st = .chk1) s t := by
  cases st <;> simp only [iceGetStage] at h
  case data =>
    obtain ⟨-, h⟩ := atPayload_eq_next.1 h
    cases h
    exact .goesOn (by simp) rfl
  case chk1 =>
    cases h
    exact .completes rfl rfl
  all_goals
    cases h
    exact .goesOn (by simp) rfl

/-! ## One operation -/

theorem exec_eastPutbyte_answer {v : Byte} {s t : State} (h : exec (.eastPutbyte v) s = .next t) :
    OpAnswer (.eastPutbyte v) s t := by
  have hi : isPutbyte v (.eastPutbyte v) := .inl rfl
  obtain ⟨hv, ⟨hr, ht⟩ | ⟨hm, hc, st, hst, h⟩⟩ := execEastPutbyte_cases h
  · exact .refused ((refuses_putbyte hi).2 hr) ht
  · have ha := eastPutStage_answer h
    rw [eastStage_eq_chk1_iff hv hst] at ha
    exact .put hi hm hc ha

theorem exec_icePutbyte_answer {v : Byte} {s t : State} (h : exec (.icePutbyte v) s = .next t) :
    OpAnswer (.icePutbyte v) s t := by
  have hi : isPutbyte v (.icePutbyte v) := .inr rfl
  obtain ⟨hv, ⟨hr, ht⟩ | ⟨hm, hc, st, hst, h⟩⟩ := execIcePutbyte_cases h
  · exact .refused ((refuses_putbyte hi).2 hr) ht
  · have ha := icePutStage_answer h
    rw [iceStage_eq_chk1_iff hv hst] at ha
    exact .put hi hm hc ha

theorem exec_eastGetbyte_answer {s t : State} (h : exec .eastGetbyte s = .next t) : OpAnswer .eastGetbyte s t := by
  have hi : isGetbyte .eastGetbyte := .inl rfl
  obtain ⟨hv, ⟨hr, ht⟩ | ⟨hm, hc, st, hst, h⟩⟩ := execEastGetbyte_cases h
  · exact .refused ((refuses_getbyte hi).2 hr) ht
  · have ha := eastGetStage_answer h
    rw [eastStage_eq_chk1_iff hv hst] at ha
    exact .got hi hm hc ha

theorem exec_iceGetbyte_answer {s t : State} (h : exec .iceGetbyte s = .next t) : OpAnswer .iceGetbyte s t := by
  have hi : isGetbyte .iceGetbyte := .inr rfl
  obtain ⟨hv, ⟨hr, ht⟩ | ⟨hm, hc, st, hst, h⟩⟩ := execIceGetbyte_cases h
  · exact .refused ((refuses_getbyte hi).2 hr) ht
  · have ha := iceGetStage_answer h
    rw [iceStage_eq_chk1_iff hv hst] at ha
    exact .got hi hm hc ha

theorem setBuffer_answer {i : Instr} {m : Mode} {a : Addr} {n : Word}
    (hi : i = .eastSetbuf m a n ∨ i = .iceSetbuf m a n) (s : State) :
    OpAnswer i s (setBuffer s.variant m a n s) := by
  obtain ⟨hr, ht⟩ | ⟨hr, ht⟩ := setBuffer_cases s.variant m a n s
  · exact .refused (.inr (.inl ⟨m, a, n, hi, hr⟩)) ht
  · have hn : ¬s.refuses i := by
      obtain rfl | rfl := hi <;> simpa [State.refuses, isPutbyte, isGetbyte] using hr
    obtain rfl | rfl := hi <;> exact .other (by simp [isPutbyte]) (by simp [isGetbyte]) hn ht

/-- Whatever an operation answers, it is one of these. -/
theorem exec_answer {i : Instr} {s t : State} (h : exec i s = .next t) : OpAnswer i s t := by
  cases i with
  | eastPutbyte v => exact exec_eastPutbyte_answer h
  | icePutbyte v => exact exec_icePutbyte_answer h
  | eastGetbyte => exact exec_eastGetbyte_answer h
  | iceGetbyte => exact exec_iceGetbyte_answer h
  | eastSetbuf m a n =>
    obtain ⟨hv, h⟩ := onVariant_eq_next.1 h
    cases h
    exact hv ▸ setBuffer_answer (.inl rfl) s
  | iceSetbuf m a n =>
    obtain ⟨hv, h⟩ := onVariant_eq_next.1 h
    cases h
    exact hv ▸ setBuffer_answer (.inr rfl) s
  | reserved5 =>
    obtain ⟨-, h⟩ := onVariant_eq_next.1 h
    cases h
    exact .refused (.inl (by simp)) rfl
  | reserved6 | reserved7 =>
    cases h
    exact .refused (.inl (by simp)) rfl
  | nop =>
    cases h
    exact .other (by simp [isPutbyte]) (by simp [isGetbyte]) (by simp [State.refuses, isPutbyte, isGetbyte]) rfl
  | eastGetsize | iceGetsize | iceSetseq =>
    obtain ⟨-, h⟩ := onVariant_eq_next.1 h
    cases h
    exact .other (by simp [isPutbyte]) (by simp [isGetbyte]) (by simp [State.refuses, isPutbyte, isGetbyte]) rfl

/-- A step executes an operation, or gives neither a response nor an event. -/
theorem step_answer {s t : State} (h : step s = .next t) :
    (∃ i, s.asked = some i ∧ OpAnswer i s.taken t) ∨
    (s.asked = none ∧ t.response = none ∧ t.txc = false ∧ t.rxc = false) := by
  obtain ⟨i, hi, -, he⟩ | ⟨-, hn, he⟩ | ⟨a, b, later, -, hn, he⟩ := step_kinds s <;> rw [he] at h
  · exact .inl ⟨i, hi, exec_answer h⟩
  · cases h
    exact .inr ⟨hn, rfl, rfl, rfl⟩
  · cases h
    exact .inr ⟨hn, rfl, rfl, rfl⟩

/-! ## What the answer shows: the status and the two events -/

/-- An operation gives a response, with status `Error` exactly when it is refused. -/
theorem OpAnswer.status {i : Instr} {s t : State} (h : OpAnswer i s t) :
    ∃ r, t.response = some r ∧ (r.status = .error ↔ s.refuses i) := by
  cases h with
  | refused hr ht => exact ⟨_, by rw [ht, answer_response], by simp [hr]⟩
  | put hi hm hc ht =>
    cases ht <;> subst t <;> exact ⟨_, rfl, by simp [refuses_putbyte hi, hm, hc]⟩
  | got hi hm hc ht =>
    cases ht <;> subst t <;> exact ⟨_, rfl, by simp [refuses_getbyte hi, hm, hc]⟩
  | other _ _ hr ht => exact ⟨_, by rw [ht, answer_response], by simp [hr]⟩

theorem OpAnswer.eq_of_refuses {i : Instr} {s t : State} (h : OpAnswer i s t) (hr : s.refuses i) :
    t = answer ⟨.error, 0, 0⟩ false false s := by
  cases h with
  | refused _ ht => exact ht
  | put hi hm hc => simp [refuses_putbyte hi, hm, hc] at hr
  | got hi hm hc => simp [refuses_getbyte hi, hm, hc] at hr
  | other _ _ hn => exact absurd hr hn

theorem OpAnswer.txc_iff {i : Instr} {s t : State} (h : OpAnswer i s t) :
    t.txc = true ↔ isGetbyte i ∧ s.mode = .output ∧ s.complete = false ∧ s.atLastByte := by
  cases h with
  | refused hr ht =>
    have hn : ¬(isGetbyte i ∧ s.mode = .output ∧ s.complete = false ∧ s.atLastByte) := by
      rintro ⟨hi, hm, hc, -⟩
      simp [refuses_getbyte hi, hm, hc] at hr
    simp [ht, hn]
  | put hi _ _ ht =>
    have hn : ¬isGetbyte i := fun hg => not_isPutbyte_of_isGetbyte hg hi
    cases ht <;> simp [*]
  | got hi hm hc ht => cases ht <;> simp [*]
  | other _ hg _ ht => simp [ht, hg]

theorem OpAnswer.response_of_txc {i : Instr} {s t : State} (h : OpAnswer i s t) (hx : t.txc = true) :
    t.response = some ⟨.complete, byteOf s.chk 1, 0⟩ := by
  cases h with
  | refused _ ht => simp [ht] at hx
  | put _ _ _ ht => cases ht <;> simp [*] at hx
  | got _ _ _ ht =>
    cases ht with
    | goesOn _ ht => simp [ht] at hx
    | completes _ ht => rw [ht, emitLast_eq, answer_response]
  | other _ _ _ ht => simp [ht] at hx

theorem OpAnswer.rxc_iff {i : Instr} {s t : State} (h : OpAnswer i s t) :
    t.rxc = true ↔ ∃ v, isPutbyte v i ∧ s.mode = .input ∧ s.complete = false ∧ s.endsValidFrame v := by
  cases h with
  | refused hr ht =>
    have hn : ¬∃ v, isPutbyte v i ∧ s.mode = .input ∧ s.complete = false ∧ s.endsValidFrame v := by
      rintro ⟨v, hi, hm, hc, -⟩
      simp [refuses_putbyte hi, hm, hc] at hr
    simp [ht, hn]
  | put hi hm hc ht =>
    have he : ∀ w, isPutbyte w i ↔ w = _ := fun w => ⟨fun hw => isPutbyte_unique hw hi, fun hw => hw ▸ hi⟩
    cases ht <;> simp [*]
  | got hi _ _ ht =>
    have hn : ∀ v, ¬isPutbyte v i := fun v => not_isPutbyte_of_isGetbyte hi
    cases ht <;> simp [*]
  | other hp _ _ ht => simp [ht, hp]

theorem OpAnswer.response_of_rxc {i : Instr} {s t : State} (h : OpAnswer i s t) (hx : t.rxc = true) :
    t.response = some ⟨.complete, 0, 0⟩ := by
  cases h with
  | refused _ ht => simp [ht] at hx
  | put _ _ _ ht =>
    cases ht with
    | goesOn _ ht => simp [ht] at hx
    | dropped _ _ ht => simp [ht] at hx
    | completes _ ht => rw [ht, acceptLast_eq, answer_response]
  | got _ _ _ ht => cases ht <;> simp [*] at hx
  | other _ _ _ ht => simp [ht] at hx

/-! ## Every operation of the instance answers -/

/-- Under the invariant the stage table has a row for `INDEX`, and a payload stage its address in memory. -/
theorem State.Inv.eastStage_inside {s : State} (h : s.Inv) (hv : s.variant = .east) :
    ∃ st, eastStage s.index.toNat s.actsize.toNat = some st ∧
      ∀ k, st = .data k → payloadAddr s k < Config.addrSpace := by
  have hb := h.indexBound
  rw [hv, hdr_east, ovh_east] at hb
  obtain ⟨st, hst⟩ := eastStage_some hb
  refine ⟨st, hst, fun k hk => ?_⟩
  have hat : eastStageAt s.index.toNat s.actsize.toNat (.data k) := eastStage_at (hk ▸ hst)
  obtain ⟨hi, hlt⟩ := hat
  exact h.payload_inside (by rw [hv, hdr_east]; omega) hlt

/-- Under the invariant the stage table has a row for `INDEX`, and a payload stage its address in memory. -/
theorem State.Inv.iceStage_inside {s : State} (h : s.Inv) (hv : s.variant = .icemkii) :
    ∃ st, iceStage s.index.toNat s.actsize.toNat = some st ∧
      ∀ k, st = .data k → payloadAddr s k < Config.addrSpace := by
  have hb := h.indexBound
  rw [hv, hdr_icemkii, ovh_icemkii] at hb
  obtain ⟨st, hst⟩ := iceStage_some hb
  refine ⟨st, hst, fun k hk => ?_⟩
  have hat : iceStageAt s.index.toNat s.actsize.toNat (.data k) := iceStage_at (hk ▸ hst)
  obtain ⟨hi, hlt⟩ := hat
  exact h.payload_inside (by rw [hv, hdr_icemkii]; omega) hlt

theorem putbyte_refused_or_accepted (s : State) :
    (s.mode = .output ∨ s.complete = true) ∨ (s.mode = .input ∧ s.complete = false) := by
  cases s.mode <;> simp

theorem getbyte_refused_or_accepted (s : State) :
    (s.mode = .input ∨ s.complete = true) ∨ (s.mode = .output ∧ s.complete = false) := by
  cases s.mode <;> simp

section
variable {s : State}

theorem eastPutStage_total {st : EastStage} (h : ∀ k, st = .data k → payloadAddr s k < Config.addrSpace) (v : Byte) :
    ∃ t, eastPutStage st v s = .next t := by
  cases st <;> simp only [eastPutStage]
  case data k => exact ⟨_, atPayload_inside (h k rfl) _⟩
  case len0 | chk0 => exact ⟨_, rfl⟩
  all_goals split_ifs <;> exact ⟨_, rfl⟩

theorem icePutStage_total {st : IceStage} (h : ∀ k, st = .data k → payloadAddr s k < Config.addrSpace) (v : Byte) :
    ∃ t, icePutStage st v s = .next t := by
  cases st <;> simp only [icePutStage]
  case data k => exact ⟨_, atPayload_inside (h k rfl) _⟩
  case start | len3 | token | chk1 => split_ifs <;> exact ⟨_, rfl⟩
  all_goals exact ⟨_, rfl⟩

theorem eastGetStage_total {st : EastStage} (h : ∀ k, st = .data k → payloadAddr s k < Config.addrSpace) :
    ∃ t, eastGetStage st s = .next t := by
  cases st <;> simp only [eastGetStage]
  case data k => exact ⟨_, atPayload_inside (h k rfl) _⟩
  all_goals exact ⟨_, rfl⟩

theorem iceGetStage_total {st : IceStage} (h : ∀ k, st = .data k → payloadAddr s k < Config.addrSpace) :
    ∃ t, iceGetStage st s = .next t := by
  cases st <;> simp only [iceGetStage]
  case data k => exact ⟨_, atPayload_inside (h k rfl) _⟩
  all_goals exact ⟨_, rfl⟩

theorem exec_eastPutbyte_total (h : s.Inv) (hv : s.variant = .east) (v : Byte) :
    ∃ t, exec (.eastPutbyte v) s = .next t := by
  obtain hr | ⟨hm, hc⟩ := putbyte_refused_or_accepted s
  · exact ⟨_, execEastPutbyte_refused hv hr⟩
  · obtain ⟨st, hst, hin⟩ := h.eastStage_inside hv
    obtain ⟨t, ht⟩ := eastPutStage_total hin v
    exact ⟨t, (execEastPutbyte_stage hv hm hc hst).trans ht⟩

theorem exec_icePutbyte_total (h : s.Inv) (hv : s.variant = .icemkii) (v : Byte) :
    ∃ t, exec (.icePutbyte v) s = .next t := by
  obtain hr | ⟨hm, hc⟩ := putbyte_refused_or_accepted s
  · exact ⟨_, execIcePutbyte_refused hv hr⟩
  · obtain ⟨st, hst, hin⟩ := h.iceStage_inside hv
    obtain ⟨t, ht⟩ := icePutStage_total hin v
    exact ⟨t, (execIcePutbyte_stage hv hm hc hst).trans ht⟩

theorem exec_eastGetbyte_total (h : s.Inv) (hv : s.variant = .east) : ∃ t, exec .eastGetbyte s = .next t := by
  obtain hr | ⟨hm, hc⟩ := getbyte_refused_or_accepted s
  · exact ⟨_, execEastGetbyte_refused hv hr⟩
  · obtain ⟨st, hst, hin⟩ := h.eastStage_inside hv
    obtain ⟨t, ht⟩ := eastGetStage_total hin
    exact ⟨t, (execEastGetbyte_stage hv hm hc hst).trans ht⟩

theorem exec_iceGetbyte_total (h : s.Inv) (hv : s.variant = .icemkii) : ∃ t, exec .iceGetbyte s = .next t := by
  obtain hr | ⟨hm, hc⟩ := getbyte_refused_or_accepted s
  · exact ⟨_, execIceGetbyte_refused hv hr⟩
  · obtain ⟨st, hst, hin⟩ := h.iceStage_inside hv
    obtain ⟨t, ht⟩ := iceGetStage_total hin
    exact ⟨t, (execIceGetbyte_stage hv hm hc hst).trans ht⟩

/-- Under the invariant an operation of the instance neither faults nor lacks a meaning. -/
theorem exec_total (h : s.Inv) {i : Instr} (hi : i.wf s.variant = true) : ∃ t, exec i s = .next t := by
  cases i with
  | nop | reserved6 | reserved7 => exact ⟨_, rfl⟩
  | eastPutbyte v => exact exec_eastPutbyte_total h (by simpa [Instr.wf] using hi) v
  | icePutbyte v => exact exec_icePutbyte_total h (by simpa [Instr.wf] using hi) v
  | eastGetbyte => exact exec_eastGetbyte_total h (by simpa [Instr.wf] using hi)
  | iceGetbyte => exact exec_iceGetbyte_total h (by simpa [Instr.wf] using hi)
  | eastSetbuf | eastGetsize | reserved5 | iceSetbuf | iceGetsize | iceSetseq =>
    exact ⟨_, onVariant_self (by simpa [Instr.wf] using hi) _⟩

end

/-! ## The obligations -/

/-- Settles O31: a step that executes no operation has no event, and the others have it as `OpAnswer.txc_iff` says. -/
theorem txcComesWithTheLastGetbyteOnly : Obligations.TxcComesWithTheLastGetbyteOnly := by
  intro s t _ hstep
  obtain ⟨i, hi, h⟩ | ⟨hn, -, hx, -⟩ := step_answer hstep
  · rw [hi, Option.some_inj, Option.some_inj]
    exact ⟨h.txc_iff, h.response_of_txc⟩
  · simp [hn, hx]

/-- Settles O32: a step that executes no operation has no event, and the others have it as `OpAnswer.rxc_iff` says. -/
theorem rxcComesWithTheLastPutbyteOnly : Obligations.RxcComesWithTheLastPutbyteOnly := by
  intro s t _ hstep
  obtain ⟨i, hi, h⟩ | ⟨hn, -, -, hx⟩ := step_answer hstep
  · simp only [hi, Option.some_inj]
    exact ⟨h.rxc_iff, h.response_of_rxc⟩
  · simp [hn, hx]

/-- Settles O34: status `Error` means that the operation was refused, and a refused one answers only. -/
theorem refusalChangesNothingButTheResponse : Obligations.RefusalChangesNothingButTheResponse := by
  intro s t r hstep hr herr
  obtain ⟨i, -, h⟩ | ⟨-, hn, -⟩ := step_answer hstep
  · obtain ⟨r', hr', hs⟩ := h.status
    obtain rfl : r = r' := Option.some.inj (hr.symm.trans hr')
    exact h.eq_of_refuses (hs.1 herr)
  · rw [hn] at hr
    cases hr

/-- Settles O35: `State.refuses` is the disjunction of the four causes. -/
theorem refusedExactlyForTheFourCauses : Obligations.RefusedExactlyForTheFourCauses := by
  intro s i hinv hi
  obtain ⟨t, ht⟩ := exec_total hinv hi
  obtain ⟨r, hr, hs⟩ := (exec_answer ht).status
  exact ⟨t, r, ht, hr, hs⟩

/-- Settles O36: `INDEX` 0 rules out a byte that the parser goes on after, since `INDEX` does not wrap, and an
incomplete frame rules out the last byte of a valid one. -/
theorem malformedByteMakesExactlyThreeWrites : Obligations.MalformedByteMakesExactlyThreeWrites := by
  intro s t v hinv hm hc hexec hi0 hc0
  obtain ⟨i, hi, h⟩ : ∃ i, isPutbyte v i ∧ OpAnswer i s t :=
    hexec.elim (fun h => ⟨_, .inl rfl, exec_answer h⟩) (fun h => ⟨_, .inr rfl, exec_answer h⟩)
  cases h with
  | refused hr => simp [refuses_putbyte hi, hm, hc] at hr
  | got hg => exact absurd hi (not_isPutbyte_of_isGetbyte hg)
  | other hp => exact absurd hi (hp v)
  | put _ _ _ ht =>
    cases ht with
    | goesOn _ ht hu =>
      have hs : s.index + 1 = 0 := by simpa [ht, hu] using hi0
      have := hinv.index_succ
      rw [hs] at this
      simp at this
    | dropped _ _ ht => exact ht
    | completes _ ht => simp [ht] at hc0

end Sys2Proof.Machine

/-! PROOFS. The command word (30_encoding.md): an operation's ports survive packing into the word and into its bytes
(O3), and a presented command, the idle ports, the `rst` input and a memory write are one step each (O4 to O7). -/

namespace Sys2Proof

theorem decode_encode (v : Variant) (i : Instr) (h : i.wf v = true) : decode v (encode i) = i := by
  cases i with
  | nop => exact Laws.RoundTrip.nop v h
  | eastSetbuf m a n => exact Laws.RoundTrip.eastSetbuf m a n v h
  | eastPutbyte b => exact Laws.RoundTrip.eastPutbyte b v h
  | eastGetbyte => exact Laws.RoundTrip.eastGetbyte v h
  | eastGetsize => exact Laws.RoundTrip.eastGetsize v h
  | iceSetbuf m a n => exact Laws.RoundTrip.iceSetbuf m a n v h
  | icePutbyte b => exact Laws.RoundTrip.icePutbyte b v h
  | iceGetbyte => exact Laws.RoundTrip.iceGetbyte v h
  | iceGetsize => exact Laws.RoundTrip.iceGetsize v h
  | iceSetseq q => exact Laws.RoundTrip.iceSetseq q v h
  | reserved5 => exact Laws.RoundTrip.reserved5 v h
  | reserved6 => exact Laws.RoundTrip.reserved6 v h
  | reserved7 => exact Laws.RoundTrip.reserved7 v h

/-- A word inside the command width is the command of the ports it carries. -/
theorem decodeWord_toNat (v : Variant) (w : BitVec commandBits) :
    decodeWord v w.toNat = .ok (decode v (Ports.ofWord w)) := by
  rw [decodeWord, if_pos w.isLt, BitVec.ofNat_toNat, BitVec.setWidth_eq]

theorem decodeWord_encodeWord (v : Variant) (i : Instr) (h : i.wf v = true) : decodeWord v (encodeWord i) = .ok i := by
  rw [encodeWord, decodeWord_toNat, Ports.ofWord_toWord, decode_encode v i h]

/-- The command word fits the bytes it is laid out in. -/
theorem littleEndian_encodeBytes (i : Instr) : littleEndian (encodeBytes i) = encodeWord i :=
  littleEndian_bytesOf _ _ ((encode i).toWord.isLt.trans (by decide))

/-- Settles O3: the ports survive the word, the word survives its bytes, and the ports that ask for an operation decode
to it. -/
theorem decodingAnEncodedCommandGivesItBack : Obligations.DecodingAnEncodedCommandGivesItBack := by
  intro v i h
  refine ⟨decodeWord_encodeWord v i h, bytesOf_length _ _, ?_⟩
  rw [decodeBytes, littleEndian_encodeBytes, decodeWord_encodeWord v i h]

/-- Settles O2, by evaluating the decoder at the written words. -/
theorem writtenOutCommandWordsDecode : Obligations.WrittenOutCommandWordsDecode := by
  unfold Obligations.WrittenOutCommandWordsDecode
  decide

end Sys2Proof

namespace Sys2Proof.Machine

theorem taken_of_inbox {s : State} {mv : HostMove} {later : List HostMove} (h : s.inbox = mv :: later) :
    s.taken = { s with inbox := later } := by
  rw [State.taken, h, List.tail_cons]

theorem asked_of_command {s : State} {p : Ports} {later : List HostMove} (h : s.inbox = .command p :: later) :
    s.asked = some (decode s.variant p) := by
  rw [State.asked, h]

/-- A command put on the ports is the operation of the very next step. -/
theorem step_presentCommand (p : Ports) (s : State) : step (presentCommand p s) = exec (decode s.variant p) s := rfl

/-- Settles O4: `step_asked` for a command, which is the encoding of an operation or the word of a table row. -/
theorem stepExecutesThePresentedCommand : Obligations.StepExecutesThePresentedCommand := by
  refine ⟨fun s p later h => ?command, fun s i h => ?encoding, fun s nbits w i hw h => ?tableWord⟩
  case command => rw [step_asked (asked_of_command h), taken_of_inbox h]
  case encoding => rw [step_presentCommand, decode_encode _ i h]
  case tableWord =>
    rw [State.withFetchWord, step_presentCommand, Nat.mod_eq_of_lt hw]
    rw [decodeWord] at h
    split_ifs at h
    exact congrArg (exec · s) (Except.ok.inj h)

/-- Settles O5: the idle ports decode to `NOP`. -/
theorem idlePortsExecuteNop : Obligations.IdlePortsExecuteNop := by
  intro s h
  have asked : s.asked = some .nop := by
    rw [State.asked, h]
    exact congrArg some (decode_of_op_zero _ rfl)
  have taken : s.taken = s := by rw [State.taken, h, List.tail_nil, ← h]
  rw [step_asked asked, taken]
  rfl

/-- Settles O6: `step_rst`, and what `hardwareReset` keeps. -/
theorem hardwareResetClearsEveryRegisterAndKeepsMemory :
    Obligations.HardwareResetClearsEveryRegisterAndKeepsMemory := by
  intro s later h
  have resetting : s.resetting := by rw [State.resetting, h]; rfl
  rw [step_rst resetting, taken_of_inbox h]
  rfl

/-- Settles O7: `step_memWrite`, and the law of a read after a write. -/
theorem callerWriteChangesExactlyOneByte : Obligations.CallerWriteChangesExactlyOneByte := by
  intro s a b later h
  have read (a' : Nat) : (callerWrite a b s.taken).byteAt a' = if a' = a.toNat then b else s.byteAt a' :=
    byteAt_storeByte s.taken a.toNat a' b
  refine ⟨_, step_memWrite h, ?_, fun a' ha => ?_, ?_⟩
  · rw [read, if_pos rfl]
  · rw [read, if_neg ha]
  · rw [taken_of_inbox h]
    rfl

/-- Settles O39: the flags byte holds `MODE`, `COMPLETE` and `OK` side by side, every other output is its register. -/
theorem flagsOutputShowsOkCompleteMode : Obligations.FlagsOutputShowsOkCompleteMode := by
  intro s
  have flags : s.flags.getLsbD 0 = s.ok ∧ s.flags.getLsbD 1 = s.complete ∧
      s.flags.getLsbD 2 = decide (s.mode = .output) ∧ s.flags.extractLsb' 3 5 = 0 := by
    rw [State.flags]
    cases s.ok <;> cases s.complete <;> cases s.mode <;> decide
  obtain ⟨ok, complete, mode, zeros⟩ := flags
  refine ⟨ok, complete, mode, zeros, rfl, rfl, rfl, rfl, rfl, rfl, fun h => ?_, fun h => ?_⟩ <;>
    rw [State.outputs, h]

end Sys2Proof.Machine

/-! PROOFS. The invariant (10_state.md section 7): every operation keeps it, so every step and every run does; and under
it no step stops. -/

namespace Sys2Proof.Machine

/-! ## Every operation keeps the invariant -/

theorem State.Inv.answer {s : State} (h : s.Inv) (r : Response) (x y : Bool) : (answer r x y s).Inv :=
  h.of_eq rfl rfl rfl rfl rfl rfl rfl rfl rfl rfl

theorem State.Inv.taken {s : State} (h : s.Inv) : s.taken.Inv :=
  h.of_eq rfl rfl rfl rfl rfl rfl rfl rfl rfl rfl

/-- `INDEX` 0 is in the header. -/
theorem not_hdr_le_zero (v : Variant) : ¬Config.hdr v ≤ (0 : Word).toNat := by cases v <;> decide

/-- The state of a fresh binding: between frames, with a window that R208 has found to fit. -/
theorem inv_bindBuffer {s : State} (h : s.mem.wf = true) {m : Mode} {a : Addr} {n : Word}
    (ha : ¬refusedOperands s.variant m a n) : (bindBuffer m a n s).Inv := by
  simp only [refusedOperands, not_or, not_lt, not_and] at ha
  obtain ⟨hlimit, hspace, hempty⟩ := ha
  exact {
    idleLength := fun hm _ _ => by
      rw [bindBuffer_mode] at hm
      simp [hm]
    payloadLength := fun _ hi => absurd hi (not_hdr_le_zero _)
    parsedFrame := fun _ hc => by simp at hc
    outputBinding := fun hm => by
      rw [bindBuffer_mode] at hm
      have h1 : n.toNat ≠ 0 := fun h0 => hempty hm (BitVec.eq_of_toNat_eq h0)
      simp only [bindBuffer_actsize, bindBuffer_maxsize, bindBuffer_variant, bindBuffer_ok, hm, if_true]
      exact ⟨by omega, trivial, hlimit, trivial⟩
    sentFrame := fun _ _ => rfl
    frameOk := fun _ hi => absurd hi (by simp)
    indexBound := by left; simp
    eastCheck := fun _ => by simp
    windowInMemory := hspace
    sizeLimit := hlimit
    tokenLength := fun _ _ hi => absurd hi (by simp)
    memoryForm := h }

theorem inv_setBuffer {s : State} (h : s.Inv) (m : Mode) (a : Addr) (n : Word) :
    (setBuffer s.variant m a n s).Inv := by
  obtain ⟨-, e⟩ | ⟨ha, e⟩ := setBuffer_cases s.variant m a n s <;> rw [e]
  · exact h.answer _ _ _
  · exact inv_bindBuffer h.memoryForm ha

/-- Every operation keeps the invariant. -/
theorem exec_inv {i : Instr} {s t : State} (h : s.Inv) (e : exec i s = .next t) : t.Inv := by
  cases i with
  | nop | reserved6 | reserved7 =>
    cases e
    exact h.answer _ _ _
  | eastGetsize | iceGetsize | reserved5 =>
    obtain ⟨-, e⟩ := onVariant_eq_next.1 e
    cases e
    exact h.answer _ _ _
  | iceSetseq q =>
    obtain ⟨-, e⟩ := onVariant_eq_next.1 e
    cases e
    exact h.of_eq rfl rfl rfl rfl rfl rfl rfl rfl rfl rfl
  | eastSetbuf m a n | iceSetbuf m a n =>
    obtain ⟨hv, e⟩ := onVariant_eq_next.1 e
    cases e
    exact hv ▸ inv_setBuffer h m a n
  | eastPutbyte v =>
    obtain ⟨hv, ⟨-, rfl⟩ | ⟨hm, hc, st, hst, e⟩⟩ := execEastPutbyte_cases e
    · exact h.answer _ _ _
    · exact eastPutStage_inv h hv hm hc (eastStage_at hst) e
  | icePutbyte v =>
    obtain ⟨hv, ⟨-, rfl⟩ | ⟨hm, hc, st, hst, e⟩⟩ := execIcePutbyte_cases e
    · exact h.answer _ _ _
    · exact icePutStage_inv h hv hm hc (iceStage_at hst) e
  | eastGetbyte =>
    obtain ⟨hv, ⟨-, rfl⟩ | ⟨hm, hc, st, hst, e⟩⟩ := execEastGetbyte_cases e
    · exact h.answer _ _ _
    · exact eastGetStage_inv h hv hm hc (eastStage_at hst) e
  | iceGetbyte =>
    obtain ⟨hv, ⟨-, rfl⟩ | ⟨hm, hc, st, hst, e⟩⟩ := execIceGetbyte_cases e
    · exact h.answer _ _ _
    · exact iceGetStage_inv h hv hm hc (iceStage_at hst) e

/-! ## Reset, and what the caller does -/

/-- The reset column of R32 satisfies the invariant over any memory in canonical form. -/
theorem inv_hardwareReset {s : State} (h : s.mem.wf = true) : (hardwareReset s).Inv where
  idleLength _ _ _ := rfl
  payloadLength _ hi := absurd hi (not_hdr_le_zero _)
  parsedFrame _ hc := by simp at hc
  outputBinding hm := by simp at hm
  sentFrame _ _ := rfl
  frameOk _ hi := by simp at hi
  indexBound := by left; simp
  eastCheck _ := by simp
  windowInMemory := by simp
  sizeLimit := by simp
  tokenLength _ _ hi := by simp at hi
  memoryForm := h

theorem State.Inv.callerWrite {s : State} (h : s.Inv) (a : Addr) (b : Byte) : (callerWrite a b s).Inv :=
  { h with memoryForm := Memory.wf_write _ b h.memoryForm a.isLt }

/-- Settles O41: the state of R32's reset column, with no memory written. -/
theorem resetStateSatisfiesTheInvariant : Obligations.ResetStateSatisfiesTheInvariant :=
  fun v => inv_hardwareReset (s := State.resetOf v) (Memory.wf_reset v)

/-! ## Steps and runs -/

/-- Settles O42: a step is an operation, a hardware reset or a memory write. -/
theorem everyStepKeepsTheInvariant : Obligations.EveryStepKeepsTheInvariant := by
  intro s t h hstep
  obtain ⟨i, -, -, e⟩ | ⟨-, -, e⟩ | ⟨a, b, later, -, -, e⟩ := step_kinds s <;> rw [e] at hstep
  · exact exec_inv h.taken hstep
  · cases hstep
    exact inv_hardwareReset h.memoryForm
  · cases hstep
    exact h.taken.callerWrite a b

/-- Settles O43: the operation that a step executes is one of the instance's own, and such an operation answers. -/
theorem noStepStopsUnderTheInvariant : Obligations.NoStepStopsUnderTheInvariant := by
  intro s h
  obtain ⟨i, -, hi, e⟩ | ⟨-, -, e⟩ | ⟨a, b, later, -, -, e⟩ := step_kinds s <;> rw [e]
  · exact exec_total h.taken hi
  · exact ⟨_, rfl⟩
  · exact ⟨_, rfl⟩

/-- A run from a state of the invariant goes through and keeps it. -/
theorem runFor_inv (k : Nat) {s : State} (h : s.Inv) : ∃ t, runFor k s = .next t ∧ t.Inv := by
  induction k generalizing s with
  | zero => exact ⟨s, rfl, h⟩
  | succ k ih =>
    obtain ⟨u, hu⟩ := noStepStopsUnderTheInvariant s h
    rw [runFor, hu]
    exact ih (everyStepKeepsTheInvariant s u h hu)

/-- Settles O44: `runFor_inv`; the caller's moves are no part of the invariant. -/
theorem everyRunGoesThrough : Obligations.EveryRunGoesThrough := by
  refine ⟨fun k s h => runFor_inv k h, fun k v moves => runFor_inv k ?_⟩
  exact (resetStateSatisfiesTheInvariant v).of_eq rfl rfl rfl rfl rfl rfl rfl rfl rfl rfl

end Sys2Proof.Machine

/-! PROOFS. Whole frames put into a parser that is between frames (section 2 of 41_east_framer.md and of
42_icemkii_framer.md): parsed, dropped for a wrong trailer, and bytes between frames skipped (R72). -/

namespace Sys2Proof.Machine

/-- A payload put leaves the bytes outside its window alone. -/
theorem read_of_writeAll_outside {s t : State} {p : List Byte} (h : t.mem = s.mem.writeAll s.bufptr.toNat p) {a : Nat}
    (ha : a < s.bufptr.toNat ∨ s.bufptr.toNat + p.length ≤ a) : t.mem.read a = s.mem.read a := by
  rw [h, Memory.read_writeAll_outside _ _ _ _ ha]

theorem toNat_ofNat_length {p : List Byte} {m : Word} (hp : p.length ≤ m.toNat) :
    (BitVec.ofNat 32 p.length).toNat = p.length :=
  Nat.mod_eq_of_lt (hp.trans_lt m.isLt)

/-- Settles O50: the last byte of the frame meets its checksum, and the fields are those of `eastLastByteDue`. -/
theorem eastFrameIsParsed : Obligations.EastFrameIsParsed := by
  intro s p hinv hv hm hc hi h1 hp
  have hs := hinv.eastBetweenFrames hv hm hc hi
  exact ⟨_, execAll_eastFrame hs h1 hp, rfl, rfl, rfl, toNat_ofNat_length hp, rfl,
    eastLastByteDue_window p (byteOf (eastChecksum p) 0) s, fun _ ha => read_of_writeAll_outside (s := s) rfl ha⟩

/-- Settles O51: the last byte of the frame does not meet its checksum, and `malformed` leaves memory alone. -/
theorem eastFrameWithWrongChecksumIsDropped : Obligations.EastFrameWithWrongChecksumIsDropped := by
  intro s p c hinv hv hm hc hi h1 hp hne
  have hs := hinv.eastBetweenFrames hv hm hc hi
  exact ⟨_, execAll_eastFrameWith_of_ne hs h1 hp hne, rfl, rfl, rfl, hc, hm, eastLastByteDue_window p (byteOf c 0) s⟩

/-- Settles O55: the last byte of the frame meets its CRC, and the fields are those of `iceLastByteDue`. -/
theorem iceFrameIsParsed : Obligations.IceFrameIsParsed := by
  intro s q p hinv hv hm hc hi h1 hp
  have hs := hinv.iceBetweenFrames hv hm hc hi
  exact ⟨_, execAll_icePut_iceFrame hs q h1 hp, rfl, rfl, rfl, toNat_ofNat_length hp, rfl, rfl,
    iceLastByteDue_window q p (byteOf (crcOf (iceCovered q p)) 0) s,
    fun _ ha => read_of_writeAll_outside (s := s) rfl ha⟩

/-- Settles O56: the last byte of the frame does not meet its CRC, and `malformed` leaves memory alone. -/
theorem iceFrameWithWrongCrcIsDropped : Obligations.IceFrameWithWrongCrcIsDropped := by
  intro s q p c hinv hv hm hc hi h1 hp hne
  have hs := hinv.iceBetweenFrames hv hm hc hi
  exact ⟨_, execAll_icePut_iceFrameWith_of_ne hs h1 hp hne, rfl, rfl, rfl, hc, hm,
    iceLastByteDue_window q p (byteOf c 0) s⟩

/-! ## Bytes between frames (R72) -/

/-- A parser that has skipped a byte between frames. -/
def skipped (s : State) : State :=
  { s with ok := false, response := inProgressResponse, txc := false, rxc := false }

theorem malformed_eq_skipped {s : State} (hi : s.index = 0) (ha : s.actsize = 0) (why : MalformCause) :
    malformed why s = skipped s := by
  simp [malformed, skipped, answer, inProgressResponse, hi, ha]

/-- Operations that all leave a state as it is, one after another. -/
theorem execAll_of_fixed {f : Byte → Instr} {u : State} {bs : List Byte} (h : ∀ b ∈ bs, exec (f b) u = .next u) :
    execAll (bs.map f) u = some (List.replicate bs.length u.response, u) := by
  induction bs with
  | nil => rfl
  | cons b bs ih =>
    obtain ⟨first, rest⟩ := List.forall_mem_cons.1 h
    exact execAll_step first (ih rest)

/-- Bytes that are skipped in `s`, and skipped again when one has been skipped, leave what the first one left. -/
theorem execAll_of_skipped {f : Byte → Instr} {s : State} {bs : List Byte} (hne : bs ≠ [])
    (h : ∀ b ∈ bs, exec (f b) s = .next (skipped s) ∧ exec (f b) (skipped s) = .next (skipped s)) :
    execAll (bs.map f) s = some (List.replicate bs.length inProgressResponse, skipped s) := by
  cases bs with
  | nil => exact absurd rfl hne
  | cons b bs =>
    obtain ⟨⟨first, -⟩, rest⟩ := List.forall_mem_cons.1 h
    exact execAll_step first (execAll_of_fixed fun c hc => (rest c hc).2)

theorem exec_eastPutbyte_noise {s : State} (hs : EastBetweenFrames s) (ha : s.actsize = 0) {b : Byte}
    (hb : b ≠ Config.eastStart) : exec (.eastPutbyte b) s = .next (skipped s) := by
  rw [exec_eastPutbyte_stage (st := .start) hs.variant hs.mode hs.complete (by rw [hs.index]; rfl), eastPutStage,
    if_neg hb, malformed_eq_skipped hs.index ha]

theorem exec_icePutbyte_noise {s : State} (hs : IceBetweenFrames s) (ha : s.actsize = 0) {b : Byte}
    (hb : b ≠ Config.iceStart) : exec (.icePutbyte b) s = .next (skipped s) := by
  rw [exec, execIcePutbyte_stage (st := .start) hs.variant hs.mode hs.complete (by rw [hs.index]; rfl), icePutStage,
    if_neg hb, malformed_eq_skipped hs.index ha]

/-- Settles O49: a byte that is not the start token is malformed, and between frames `malformed` changes only `OK`. -/
theorem noiseBetweenFramesIsSkipped : Obligations.NoiseBetweenFramesIsSkipped := by
  intro s bs hinv hm hc hi hne
  have ha : s.actsize = 0 := hinv.idleLength hm hi hc
  refine ⟨fun hv hbs => ?east, fun hv hbs => ?ice⟩
  case east =>
    have hs := hinv.eastBetweenFrames hv hm hc hi
    have hs' : EastBetweenFrames (skipped s) := { hs with }
    exact execAll_of_skipped hne fun b hb =>
      ⟨exec_eastPutbyte_noise hs ha (hbs b hb), exec_eastPutbyte_noise hs' ha (hbs b hb)⟩
  case ice =>
    have hs := hinv.iceBetweenFrames hv hm hc hi
    have hs' : IceBetweenFrames (skipped s) := { hs with }
    exact execAll_of_skipped hne fun b hb =>
      ⟨exec_icePutbyte_noise hs ha (hbs b hb), exec_icePutbyte_noise hs' ha (hbs b hb)⟩

end Sys2Proof.Machine

/-! PROOFS. Whole frames got from a serialiser at its first byte (section 3 of 41_east_framer.md and of
42_icemkii_framer.md), and the EAST round trip (R128). -/

namespace Sys2Proof.Machine

/-! ## One byte at each stage of an EAST serialiser (R126)

A payload byte is `execEastGetbyte_data`. -/

section
variable {s : State} (hv : s.variant = .east) (hm : s.mode = .output) (hc : s.complete = false)
include hv hm hc

/-- `EAST.GETBYTE` in a serialiser runs the stage that `INDEX` and `ACTSIZE` give. -/
theorem exec_eastGetbyte_stage {st : EastStage} (hst : eastStage s.index.toNat s.actsize.toNat = some st) :
    exec .eastGetbyte s = eastGetStage st s :=
  execEastGetbyte_stage hv hm hc hst

theorem exec_eastGetbyte_start (hi : s.index = 0) :
    exec .eastGetbyte s = .next (emit Config.eastStart { s with chk := Config.eastSeed }) :=
  exec_eastGetbyte_stage (st := .start) hv hm hc (by rw [hi]; rfl)

theorem exec_eastGetbyte_len0 (hi : s.index = 1) : exec .eastGetbyte s = .next (emit (byteOf s.actsize 0) s) :=
  exec_eastGetbyte_stage (st := .len0) hv hm hc (by rw [hi]; rfl)

theorem exec_eastGetbyte_len1 (hi : s.index = 2) : exec .eastGetbyte s = .next (emit (byteOf s.actsize 1) s) :=
  exec_eastGetbyte_stage (st := .len1) hv hm hc (by rw [hi]; rfl)

theorem exec_eastGetbyte_stop (hi : s.index.toNat = s.actsize.toNat + 3) :
    exec .eastGetbyte s = .next (emit Config.eastStop s) :=
  exec_eastGetbyte_stage (st := .stop) hv hm hc (by rw [hi]; exact eastStage_trailer 0 _)

theorem exec_eastGetbyte_chk0 (hi : s.index.toNat = s.actsize.toNat + 4) :
    exec .eastGetbyte s = .next (emit (byteOf s.chk 0) s) :=
  exec_eastGetbyte_stage (st := .chk0) hv hm hc (by rw [hi]; exact eastStage_trailer 1 _)

theorem exec_eastGetbyte_chk1 (hi : s.index.toNat = s.actsize.toNat + 5) :
    exec .eastGetbyte s = .next (emitLast (byteOf s.chk 1) s) :=
  exec_eastGetbyte_stage (st := .chk1) hv hm hc (by rw [hi]; exact eastStage_trailer 2 _)

end

/-! ## An EAST frame got from a serialiser -/

/-- An EAST serialiser at the first byte of its frame, its window inside the memory. -/
structure EastAtFirstByte (s : State) : Prop where
  variant : s.variant = .east
  mode : s.mode = .output
  complete : s.complete = false
  index : s.index = 0
  sizeLimit : s.actsize.toNat ≤ 65535
  windowInMemory : s.bufptr.toNat + s.actsize.toNat ≤ Config.addrSpace

/-- The checksum that a serialiser sends. -/
def State.boundChecksum (s : State) : Half := eastChecksum s.boundPayload

/-- The serialiser after the header of its frame. -/
def eastHeaderSent (s : State) : State :=
  { s with
    chk := Config.eastSeed, index := 3, response := sentByte (byteOf s.actsize 1), txc := false, rxc := false }

/-- The serialiser after the header and the payload of its frame, but for the outputs of its last step. -/
def eastPayloadSent (s : State) : State := { s with chk := s.boundChecksum, index := 3 + s.actsize }

/-- The serialiser when the last byte of its frame is due. -/
def eastLastByteToSend (s : State) : State :=
  emit (byteOf s.boundChecksum 0) (emit Config.eastStop (eastPayloadSent s))

@[simp] theorem eastLastByteToSend_mem (s : State) : (eastLastByteToSend s).mem = s.mem := by
  simp [eastLastByteToSend, eastPayloadSent]

/-- The low bytes of a size within the limit are the length bytes of an EAST frame. -/
theorem eastHeaderBytes_actsize (l : Word) :
    eastHeaderBytes l.toNat = [Config.eastStart, byteOf l 0, byteOf l 1] := by
  have low : byteOf (BitVec.ofNat 16 l.toNat) 0 = byteOf l 0 ∧ byteOf (BitVec.ofNat 16 l.toNat) 1 = byteOf l 1 := by
    constructor
    all_goals
      apply BitVec.eq_of_toNat_eq
      simp only [byteOf_toNat, BitVec.toNat_ofNat]
      omega
  rw [eastHeaderBytes, low.1, low.2]

theorem eastFrame_length (p : List Byte) : (eastFrame p).length = p.length + 6 := by
  simp [eastFrame, eastFrameWith]

section
variable {s : State} (hs : EastAtFirstByte s)
include hs

/-- The header of a frame is sent byte by byte. -/
theorem execAll_eastGet_header :
    execAll (List.replicate 3 .eastGetbyte) s =
      some ((eastHeaderBytes s.actsize.toNat).map sentByte, eastHeaderSent s) := by
  obtain ⟨hv, hm, hc, hi, -, -⟩ := hs
  have start := exec_eastGetbyte_start hv hm hc hi
  have len0 := exec_eastGetbyte_len0 (s := emit Config.eastStart { s with chk := Config.eastSeed }) hv hm hc
    (by simp [hi])
  have len1 := exec_eastGetbyte_len1
    (s := emit (byteOf s.actsize 0) (emit Config.eastStart { s with chk := Config.eastSeed })) hv hm hc (by simp [hi])
  refine (execAll_step start (execAll_step len0 (execAll_step len1 (execAll_nil _)))).trans ?_
  simp [eastHeaderBytes_actsize, eastHeaderSent, sentByte, answer, advance, hi]

/-- The header and the payload of a frame are sent. -/
theorem execAll_eastGet_payload :
    ∃ r x y, execAll (List.replicate (3 + s.actsize.toNat) .eastGetbyte) s =
      some ((eastHeaderBytes s.actsize.toNat ++ s.boundPayload).map sentByte,
        { eastPayloadSent s with response := r, txc := x, rxc := y }) := by
  have header := execAll_eastGet_header hs
  obtain ⟨hv, hm, hc, -, hl, hw⟩ := hs
  obtain ⟨r, x, y, payload⟩ := execAll_eastGet_data s.actsize.toNat (s := eastHeaderSent s) hv hm hc
    le_rfl (Nat.add_comm 3 s.actsize.toNat).le hw (show 3 + s.actsize.toNat < 2 ^ 32 by omega)
  have hindex : 3 + BitVec.ofNat 32 s.actsize.toNat = 3 + s.actsize := by
    rw [BitVec.ofNat_toNat, BitVec.setWidth_eq]
  refine ⟨r, x, y, ?_⟩
  rw [eastPayloadSent, ← hindex, List.replicate_add, List.map_append]
  exact execAll_append header payload

/-- A serialiser sends the frame of its window's contents: only the last byte comes with `Complete`. -/
theorem execAll_eastGet_eastFrame :
    execAll (List.replicate (s.actsize.toNat + 6) .eastGetbyte) s =
      some (sentResponses (eastFrame s.boundPayload),
        emitLast (byteOf s.boundChecksum 1) (eastLastByteToSend s)) := by
  obtain ⟨r, x, y, payload⟩ := execAll_eastGet_payload hs
  obtain ⟨hv, hm, hc, -, hl, -⟩ := hs
  have hi : (eastPayloadSent s).index.toNat = s.actsize.toNat + 3 := by
    simp [eastPayloadSent]
    omega
  have hi' : (emit Config.eastStop (eastPayloadSent s)).index.toNat = s.actsize.toNat + 4 := by
    simp [eastPayloadSent]
    omega
  have hi'' : (eastLastByteToSend s).index.toNat = s.actsize.toNat + 5 := by
    simp [eastLastByteToSend, eastPayloadSent]
    omega
  have stop := exec_eastGetbyte_stop (s := { eastPayloadSent s with response := r, txc := x, rxc := y }) hv hm hc hi
  have chk0 := exec_eastGetbyte_chk0 (s := emit Config.eastStop (eastPayloadSent s)) hv hm hc hi'
  have chk1 := exec_eastGetbyte_chk1 (s := eastLastByteToSend s) hv hm hc hi''
  rw [eastFrame, eastFrameWith_eq_append_last, sentResponses_append_last, boundPayload_length, List.map_append,
    List.append_assoc, show s.actsize.toNat + 6 = 3 + s.actsize.toNat + 3 by omega, List.replicate_add]
  exact execAll_append payload (execAll_step stop (execAll_step chk0 (execAll_step chk1 (execAll_nil _))))

end

theorem State.Inv.eastAtFirstByte {s : State} (h : s.Inv) (hv : s.variant = .east) (hm : s.mode = .output)
    (hc : s.complete = false) (hi : s.index = 0) : EastAtFirstByte s := by
  obtain ⟨-, ha, hl, -⟩ := h.outputBinding hm
  rw [hv, limit_east] at hl
  exact ⟨hv, hm, hc, hi, ha ▸ hl, ha ▸ h.windowInMemory⟩

theorem State.Inv.iceAtFirstByte {s : State} (h : s.Inv) (hv : s.variant = .icemkii) (hm : s.mode = .output)
    (hc : s.complete = false) (hi : s.index = 0) : IceAtFirstByte s := by
  obtain ⟨-, ha, hl, -⟩ := h.outputBinding hm
  rw [hv, limit_icemkii] at hl
  exact ⟨hv, hm, hc, hi, ha ▸ hl, ha ▸ h.windowInMemory⟩

/-- Settles O52: `execAll_eastGet_eastFrame`, and what `emitLast` writes. -/
theorem eastFrameIsProduced : Obligations.EastFrameIsProduced := by
  intro s hinv hv hm hc hi
  exact ⟨_, execAll_eastGet_eastFrame (hinv.eastAtFirstByte hv hm hc hi), rfl, rfl, rfl, by simp⟩

/-- Settles O57: `execAll_iceGet_iceFrame`, and what `emitLast` writes. -/
theorem iceFrameIsProduced : Obligations.IceFrameIsProduced := by
  intro s hinv hv hm hc hi
  exact ⟨_, execAll_iceGet_iceFrame (hinv.iceAtFirstByte hv hm hc hi), rfl, rfl, rfl, rfl, rfl⟩

/-! ## The EAST round trip (R128) -/

theorem exec_eastSetbuf_of_accepted {s : State} (hv : s.variant = .east) {mode : Mode} {ptr : Addr} {size : Word}
    (h : ¬refusedOperands .east mode ptr size) :
    exec (.eastSetbuf mode ptr size) s = .next (bindBuffer mode ptr size s) := by
  rw [exec_eastSetbuf hv, setBuffer_of_accepted h]

theorem exec_eastGetsize {s : State} (hv : s.variant = .east) :
    exec .eastGetsize s = .next (respondSize (packetSize .east s) s) :=
  onVariant_self hv _

/-- Settles O53: the first side, bound for output, sends the frame of its window, and the second, bound for input, is
between frames and parses it. -/
theorem eastRoundTripReproducesThePayload : Obligations.EastRoundTripReproducesThePayload := by
  intro a b pa pb n m _ _ hva hvb hn1 hnl hml hnm hpa hpb
  have output := exec_eastSetbuf_of_accepted hva (not_refusedOperands_of_fits (mode := .output) hnl hpa fun _ => hn1)
  have input := exec_eastSetbuf_of_accepted hvb (not_refusedOperands_of_fits (mode := .input) hml hpb nofun)
  have sent := execAll_eastGet_eastFrame (s := bindBuffer .output pa n a) ⟨hva, rfl, rfl, rfl, hnl, hpa⟩
  have hlen : (a.window pa.toNat n.toNat).length = n.toNat := window_length _ _ _
  have parsed := execAll_eastFrame (s := bindBuffer .input pb m b) ⟨hvb, rfl, rfl, rfl, hml, hpb⟩
    (p := a.window pa.toNat n.toNat) (hn1.trans_eq hlen.symm) (hlen.trans_le hnm)
  rw [hlen] at parsed
  refine ⟨_, _, _, _, eastFrame (a.window pa.toNat n.toNat), output, input,
    (eastFrame_length _).trans (congrArg (· + 6) hlen), sent, parsed, ?window, _, exec_eastGetsize hvb, ?size⟩
  case window =>
    have window := eastLastByteDue_window (a.window pa.toNat n.toNat)
      (byteOf (eastChecksum (a.window pa.toNat n.toNat)) 0) (bindBuffer .input pb m b)
    rwa [hlen] at window
  case size =>
    have hsize : BitVec.ofNat 32 (a.window pa.toNat n.toNat).length = n := by
      rw [hlen, BitVec.ofNat_toNat, BitVec.setWidth_eq]
    exact congrArg (fun l => some (Response.mk .inProgress 0 l)) hsize

end Sys2Proof.Machine

/-! PROOFS. One rule per framing operation (R125 to R127, R155 to R157): each is refused, or runs the stage that `INDEX`
and `ACTSIZE` give, and the index conditions of the pseudocode pick the same stage. -/

namespace Sys2Proof.Machine

/-! ## The size query -/

theorem packetSize_eq_ite (v : Variant) (s : State) :
    packetSize v s =
      if s.mode = .output then
        if s.complete then 0 else BitVec.ofNat 32 (s.actsize.toNat + Config.ovh v - s.index.toNat)
      else s.actsize := by
  cases hm : s.mode <;> simp [packetSize, hm]

/-- Settles O17: `packetSize` with `OVH` 6. -/
theorem eastGetsizeFollowsItsRule : Obligations.EastGetsizeFollowsItsRule := by
  intro s hv _
  rw [exec_eastGetsize hv, packetSize_eq_ite]
  rfl

/-- Settles O18: `packetSize` with `OVH` 10. -/
theorem iceGetsizeFollowsItsRule : Obligations.IceGetsizeFollowsItsRule := by
  intro s hv _
  rw [exec_iceGetsize hv, packetSize_eq_ite]
  rfl

/-! ## What an advancing stage writes, with the next `INDEX` as a number -/

theorem index_succ_eq_ofNat (s : State) : s.index + 1 = BitVec.ofNat 32 (s.index.toNat + 1) := by
  apply BitVec.eq_of_toNat_eq
  simp

theorem accept_eq_ofNat (s : State) : accept s =
    { s with
      index := BitVec.ofNat 32 (s.index.toNat + 1)
      response := some ⟨.inProgress, 0, 0⟩, txc := false, rxc := false } := by
  rw [← index_succ_eq_ofNat]
  rfl

theorem emit_eq_ofNat (b : Byte) (s : State) : emit b s =
    { s with
      index := BitVec.ofNat 32 (s.index.toNat + 1)
      response := some ⟨.inProgress, b, 0⟩, txc := false, rxc := false } := by
  rw [← index_succ_eq_ofNat]
  rfl

theorem lengthValid_iff (l m : Word) : lengthValid l m = true ↔ 1 ≤ l.toNat ∧ l.toNat ≤ m.toNat := by
  rw [lengthValid, decide_eq_true_eq]

theorem ofNat_eastLength (a : Word) (v : Byte) :
    BitVec.ofNat 32 (a.toNat % 256 + 256 * v.toNat) = eastLength a v := by
  rw [← eastLength_toNat, BitVec.ofNat_toNat, BitVec.setWidth_eq]

theorem ofNat_iceLength (a : Word) (v : Byte) :
    BitVec.ofNat 32 (a.toNat % 2 ^ 24 + 2 ^ 24 * v.toNat) = iceLength a v := by
  rw [← iceLength_toNat, BitVec.ofNat_toNat, BitVec.setWidth_eq]

theorem xorUpd_eq_ofNat (c : Half) (b : Byte) : xorUpd c b = c ^^^ BitVec.ofNat 16 b.toNat := by
  rw [BitVec.ofNat_toNat, xorUpd]

theorem receivedCheck_eq_iff (v rxl : Byte) (c : Half) :
    receivedCheck v rxl = c ↔ v.toNat * 256 + rxl.toNat = c.toNat := by
  rw [← receivedCheck_toNat, BitVec.toNat_inj]

theorem byteOf_eq_ofNat {w : Nat} (x : BitVec w) (j : Nat) : byteOf x j = BitVec.ofNat 8 (x.toNat / 256 ^ j) := by
  apply BitVec.eq_of_toNat_eq
  rw [byteOf_toNat, BitVec.toNat_ofNat]

/-! ## The byte fields of `SEQ` and `ACTSIZE` as concatenations (R77) -/

/-- Writing the lowest byte, as a concatenation. -/
theorem setByte_low {n : Nat} (x : BitVec (n + 8)) (v : Byte) : setByte x 0 v = x.extractLsb' 8 n ++ v := by
  apply BitVec.eq_of_getLsbD_eq
  intro i hi
  rw [setByte_getLsbD, BitVec.getLsbD_append, BitVec.getLsbD_extractLsb']
  obtain low | high := Nat.lt_or_ge i 8
  · simp [low, hi]
  · have inside : i - 8 < n := by omega
    simp [high.not_gt, inside, Nat.add_sub_cancel' high]

/-- Writing the highest byte, as a concatenation. -/
theorem setByte_high {j : Nat} (x : BitVec (8 + 8 * j)) (v : Byte) :
    setByte x j v = v ++ x.extractLsb' 0 (8 * j) := by
  apply BitVec.eq_of_getLsbD_eq
  intro i hi
  rw [setByte_getLsbD, BitVec.getLsbD_append, BitVec.getLsbD_extractLsb', Nat.zero_add]
  obtain low | high := Nat.lt_or_ge i (8 * j)
  · simp [low, low.not_ge]
  · have inside : i < 8 * j + 8 := by omega
    simp [high, high.not_gt, inside, hi]

/-- Writing a byte between others, as a concatenation. -/
theorem setByte_middle {n j : Nat} (x : BitVec (n + 8 + 8 * j)) (v : Byte) :
    setByte x j v = x.extractLsb' (8 * j + 8) n ++ v ++ x.extractLsb' 0 (8 * j) := by
  apply BitVec.eq_of_getLsbD_eq
  intro i hi
  rw [setByte_getLsbD, BitVec.getLsbD_append, BitVec.getLsbD_append, BitVec.getLsbD_extractLsb',
    BitVec.getLsbD_extractLsb', Nat.zero_add]
  obtain low | ge := Nat.lt_or_ge i (8 * j)
  · simp [low, low.not_ge]
  · obtain inside | above := Nat.lt_or_ge i (8 * j + 8)
    · have : i - 8 * j < 8 := by omega
      simp [ge, ge.not_gt, inside, this, hi]
    · have h1 : ¬i - 8 * j < 8 := by omega
      have h2 : i - 8 * j - 8 < n := by omega
      have h3 : 8 * j + 8 + (i - 8 * j - 8) = i := by omega
      simp [ge.not_gt, above.not_gt, h1, h2, h3]

/-! ## The index conditions of the pseudocode pick the stage of the table -/

section
variable {α : Type}

theorem eastStage_ite {i n : Nat} {st : EastStage} (h : eastStageAt i n st)
    (start len0 len1 data stop chk0 chk1 : α) :
    (if i = 0 then start else if i = 1 then len0 else if i = 2 then len1 else if i ≤ n + 2 then data
      else if i = n + 3 then stop else if i = n + 4 then chk0 else chk1) =
    match st with
    | .start => start
    | .len0 => len0
    | .len1 => len1
    | .data _ => data
    | .stop => stop
    | .chk0 => chk0
    | .chk1 => chk1 := by
  cases st <;> simp only [eastStageAt] at h
  case start | len0 | len1 =>
    subst h
    rfl
  case data => rw [if_neg (by omega), if_neg (by omega), if_neg (by omega), if_pos (by omega)]
  case stop => rw [if_neg (by omega), if_neg (by omega), if_neg (by omega), if_neg (by omega), if_pos h]
  case chk0 =>
    iterate 5 rw [if_neg (by omega)]
    exact if_pos h
  case chk1 => iterate 6 rw [if_neg (by omega)]

theorem iceStage_ite {i n : Nat} {st : IceStage} (h : iceStageAt i n st)
    (start seq0 seq1 len0 len1 len2 len3 token data chk0 chk1 : α) :
    (if i = 0 then start else if i = 1 then seq0 else if i = 2 then seq1 else if i = 3 then len0
      else if i = 4 then len1 else if i = 5 then len2 else if i = 6 then len3 else if i = 7 then token
      else if i ≤ n + 7 then data else if i = n + 8 then chk0 else chk1) =
    match st with
    | .start => start
    | .seq0 => seq0
    | .seq1 => seq1
    | .len0 => len0
    | .len1 => len1
    | .len2 => len2
    | .len3 => len3
    | .token => token
    | .data _ => data
    | .chk0 => chk0
    | .chk1 => chk1 := by
  cases st <;> simp only [iceStageAt] at h
  case start | seq0 | seq1 | len0 | len1 | len2 | len3 | token =>
    subst h
    rfl
  case data =>
    iterate 8 rw [if_neg (by omega)]
    exact if_pos (by omega)
  case chk0 =>
    iterate 9 rw [if_neg (by omega)]
    exact if_pos h
  case chk1 => iterate 10 rw [if_neg (by omega)]

/-- The two precondition checks refuse. -/
theorem ite_of_refused {s : State} {m : Mode} (h : s.mode = m ∨ s.complete = true) (a b : α) :
    (if s.mode = m then a else if s.complete then a else b) = a := by
  obtain hm | hc := h
  · exact if_pos hm
  · rw [if_pos hc, ite_self]

/-- The two precondition checks pass. -/
theorem ite_of_accepted {s : State} {m : Mode} (hm : s.mode ≠ m) (hc : s.complete = false) (a b : α) :
    (if s.mode = m then a else if s.complete then a else b) = b := by
  rw [if_neg hm, if_neg (by rw [hc]; decide)]

end

/-! ## The rules -/

/-- Settles O13: at each stage, the rule of the stage with the next `INDEX` as a number. -/
theorem eastPutbyteFollowsItsRule : Obligations.EastPutbyteFollowsItsRule := by
  intro s v hv hinv
  dsimp only
  obtain hr | ⟨hm, hc⟩ := putbyte_refused_or_accepted s
  · rw [ite_of_refused hr]
    exact execEastPutbyte_refused hv hr
  obtain ⟨st, hst, hin⟩ := hinv.eastStage_inside hv
  have hat := eastStage_at hst
  rw [exec_eastPutbyte_stage hv hm hc hst, ite_of_accepted (by simp [hm]) hc, eastStage_ite hat]
  cases st <;> simp only [eastStageAt] at hat <;> simp only [eastPutStage]
  case start =>
    rw [← apply_ite Host.Outcome.next]
    simp only [accept_eq_ofNat, hat]
    rfl
  case len0 =>
    simp only [accept_eq_ofNat, hat, BitVec.ofNat_toNat]
    rfl
  case len1 =>
    rw [← apply_ite Host.Outcome.next]
    simp only [accept_eq_ofNat, hat, lengthValid_iff, eastLength_toNat, ofNat_eastLength]
    rfl
  case data k =>
    obtain ⟨hi, -⟩ := hat
    rw [atPayload_inside (hin k rfl), accept_eq_ofNat, xorUpd_eq_ofNat]
    simp only [storeByte_index, hi, Nat.add_sub_cancel]
    rfl
  case stop =>
    rw [← apply_ite Host.Outcome.next, accept_eq_ofNat]
    rfl
  case chk0 => rw [accept_eq_ofNat]
  case chk1 =>
    rw [← apply_ite Host.Outcome.next]
    simp only [receivedCheck_eq_iff]
    rfl

/-- Settles O14: at each stage, the rule of the stage with the next `INDEX` as a number and the byte written into its
register as a concatenation. -/
theorem icePutbyteFollowsItsRule : Obligations.IcePutbyteFollowsItsRule := by
  intro s v hv hinv
  dsimp only
  obtain hr | ⟨hm, hc⟩ := putbyte_refused_or_accepted s
  · rw [ite_of_refused hr]
    exact execIcePutbyte_refused hv hr
  obtain ⟨st, hst, hin⟩ := hinv.iceStage_inside hv
  have hat := iceStage_at hst
  rw [exec, execIcePutbyte_stage hv hm hc hst, ite_of_accepted (by simp [hm]) hc, iceStage_ite hat]
  cases st <;> simp only [iceStageAt] at hat <;> simp only [icePutStage]
  case start | token =>
    rw [← apply_ite Host.Outcome.next, accept_eq_ofNat]
    rfl
  case seq0 =>
    rw [accept_eq_ofNat, setByte_low (n := 8)]
  case seq1 =>
    rw [accept_eq_ofNat, setByte_high (j := 1)]
  case len0 =>
    rw [accept_eq_ofNat, setByte_low (n := 24)]
  case len1 =>
    rw [accept_eq_ofNat, setByte_middle (n := 16) (j := 1)]
  case len2 =>
    rw [accept_eq_ofNat, setByte_middle (n := 8) (j := 2)]
  case len3 =>
    rw [← apply_ite Host.Outcome.next]
    simp only [accept_eq_ofNat, lengthValid_iff, iceLength_toNat, ofNat_iceLength]
    rfl
  case data k =>
    obtain ⟨hi, -⟩ := hat
    rw [atPayload_inside (hin k rfl), accept_eq_ofNat]
    simp only [storeByte_index, hi, Nat.add_sub_cancel]
    rfl
  case chk0 => rw [accept_eq_ofNat]
  case chk1 =>
    rw [← apply_ite Host.Outcome.next]
    simp only [receivedCheck_eq_iff]
    rfl

/-- Settles O15: at each stage, the rule of the stage with the next `INDEX` and the bytes of registers as numbers. -/
theorem eastGetbyteFollowsItsRule : Obligations.EastGetbyteFollowsItsRule := by
  intro s hv hinv
  dsimp only
  obtain hr | ⟨hm, hc⟩ := getbyte_refused_or_accepted s
  · rw [ite_of_refused hr]
    exact execEastGetbyte_refused hv hr
  obtain ⟨st, hst, hin⟩ := hinv.eastStage_inside hv
  have hat := eastStage_at hst
  rw [exec_eastGetbyte_stage hv hm hc hst, ite_of_accepted (by simp [hm]) hc, eastStage_ite hat]
  cases st <;> simp only [eastStageAt] at hat <;> simp only [eastGetStage]
  case start | stop => rw [emit_eq_ofNat]
  case len0 | chk0 => rw [emit_eq_ofNat, byteOf_eq_ofNat, pow_zero, Nat.div_one]
  case len1 => rw [emit_eq_ofNat, byteOf_eq_ofNat, pow_one]
  case data k =>
    obtain ⟨hi, -⟩ := hat
    rw [atPayload_inside (hin k rfl), emit_eq_ofNat, xorUpd_eq_ofNat, hi, Nat.add_sub_cancel]
    rfl
  case chk1 =>
    rw [byteOf_eq_ofNat]
    rfl

/-- Settles O16: at each stage, the rule of the stage with the next `INDEX` and the bytes of registers as numbers; the
four length bytes are one row of the pseudocode. -/
theorem iceGetbyteFollowsItsRule : Obligations.IceGetbyteFollowsItsRule := by
  intro s hv hinv
  dsimp only
  obtain hr | ⟨hm, hc⟩ := getbyte_refused_or_accepted s
  · rw [ite_of_refused hr]
    exact execIceGetbyte_refused hv hr
  obtain ⟨st, hst, hin⟩ := hinv.iceStage_inside hv
  have hat := iceStage_at hst
  rw [exec, execIceGetbyte_stage hv hm hc hst, ite_of_accepted (by simp [hm]) hc]
  cases st <;> simp only [iceStageAt] at hat <;> simp only [iceGetStage, iceEmit_eq]
  case start | token =>
    simp only [emit_eq_ofNat, hat]
    rfl
  case seq0 | seq1 =>
    simp only [emit_eq_ofNat, byteOf_eq_ofNat, hat, pow_zero, pow_one, Nat.div_one]
    rfl
  case len0 | len1 | len2 | len3 =>
    simp only [emit_eq_ofNat, byteOf_eq_ofNat, hat]
    rfl
  case data k =>
    obtain ⟨hi, hk⟩ := hat
    iterate 5 rw [if_neg (by omega)]
    rw [if_pos (by omega), atPayload_inside (hin k rfl), emit_eq_ofNat, hi, Nat.add_sub_cancel]
    rfl
  case chk0 =>
    iterate 6 rw [if_neg (by omega)]
    rw [if_pos hat, emit_eq_ofNat, byteOf_eq_ofNat, pow_zero, Nat.div_one]
  case chk1 =>
    iterate 7 rw [if_neg (by omega)]
    rw [byteOf_eq_ofNat]
    rfl

end Sys2Proof.Machine

/-! PROOFS. What each operation writes and what it leaves unchanged (10_state.md; the frames of 41_east_framer.md and
42_icemkii_framer.md). The writes of an operation are said once, by the inductive `OpWrites`; `exec_writes` shows that
nothing else happens, and the rule of each register is read off it. -/

namespace Sys2Proof.Machine

/-! ## The writes of an operation -/

/-- The operation is a `SETBUF` of either variant with these operands. -/
def isSetbuf (m : Mode) (a : Addr) (n : Word) (i : Instr) : Prop := i = .eastSetbuf m a n ∨ i = .iceSetbuf m a n

/-- The operation is a `SETBUF` that R208 accepts. -/
def State.rebinds (s : State) (i : Instr) : Prop := ∃ m a n, isSetbuf m a n i ∧ ¬refusedOperands s.variant m a n

/-- What the operation `i`, a `PUTBYTE` of `v` that is not refused, makes of `s`. -/
inductive PutWrites (i : Instr) (v : Byte) (s : State) : State → Prop
  /-- The start token. -/
  | started (c : Half) (hi : s.index = 0) (htoken : i = .eastPutbyte 0x24 ∨ i = .icePutbyte 0x1B) :
    PutWrites i v s (accept { s with ok := true, chk := c, actsize := 0 })
  /-- Byte `j` of the sequence number. -/
  | seqByte (c : Half) (j : Nat) (hj : j = 0 ∧ s.index = 1 ∨ j = 1 ∧ s.index = 2) (hi : i = .icePutbyte v) :
    PutWrites i v s (accept { s with seq := setByte s.seq j v, chk := c })
  /-- A length byte, or a token or stop byte that leaves the length as it is. -/
  | counted (c : Half) (l : Word) : PutWrites i v s (accept { s with actsize := l, chk := c })
  /-- Payload byte `k`. -/
  | stored (c : Half) (k : Nat) (hi : s.index.toNat = k + Config.hdr s.variant) (hk : k < s.actsize.toNat) :
    PutWrites i v s (accept { s.storeByte (payloadAddr s k) v with chk := c })
  /-- The low check byte. -/
  | latched (hi : s.index.toNat + 2 = s.actsize.toNat + Config.ovh s.variant) :
    PutWrites i v s (accept { s with rxl := v })
  /-- A byte that does not fit its stage. -/
  | dropped (why : MalformCause) : PutWrites i v s (malformed why s)
  /-- The last byte of a valid frame. -/
  | completed (h : s.endsValidFrame v) : PutWrites i v s (acceptLast s)

/-- What a `GETBYTE` that is not refused makes of `s`. -/
inductive GetWrites (s : State) : State → Prop
  | sent (b : Byte) (c : Half) (h : ¬s.atLastByte) : GetWrites s (emit b { s with chk := c })
  | completed (h : s.atLastByte) : GetWrites s (emitLast (byteOf s.chk 1) s)

/-- What the operation `i` makes of `s`. -/
inductive OpWrites (i : Instr) (s : State) : State → Prop
  | refused (h : s.refuses i) : OpWrites i s (answer ⟨.error, 0, 0⟩ false false s)
  | put {v : Byte} {t : State} (hi : isPutbyte v i) (hm : s.mode = .input) (hc : s.complete = false)
    (h : PutWrites i v s t) : OpWrites i s t
  | got {t : State} (hi : isGetbyte i) (hm : s.mode = .output) (hc : s.complete = false) (h : GetWrites s t) :
    OpWrites i s t
  | bound {m : Mode} {a : Addr} {n : Word} (hi : isSetbuf m a n i) (h : ¬refusedOperands s.variant m a n) :
    OpWrites i s (bindBuffer m a n s)
  | seqSet {q : Half} (hi : i = .iceSetseq q) : OpWrites i s (respond .inProgress { s with seq := q })
  | answered (n : Word) (hi : i = .nop ∧ n = 0 ∨ i = .eastGetsize ∨ i = .iceGetsize) : OpWrites i s (respondSize n s)

section
variable {s t : State}

theorem eastPutStage_writes {st : EastStage} {v : Byte} (hv : s.variant = .east)
    (hst : eastStage s.index.toNat s.actsize.toNat = some st) (h : eastPutStage st v s = .next t) :
    PutWrites (.eastPutbyte v) v s t := by
  have hat := eastStage_at hst
  have last := eastStage_eq_chk1_iff hv hst
  cases st <;> simp only [eastStageAt] at hat <;> simp only [eastPutStage] at h
  case start =>
    split_ifs at h with htoken <;> cases h
    · exact .started _ (BitVec.eq_of_toNat_eq hat) (.inl (congrArg _ htoken))
    · exact .dropped _
  case len0 =>
    cases h
    exact .counted _ _
  case len1 | stop =>
    split_ifs at h <;> cases h
    · exact .counted _ _
    · exact .dropped _
  case data k =>
    obtain ⟨-, h⟩ := atPayload_eq_next.1 h
    cases h
    exact .stored _ k (by rw [hv, hdr_east, hat.1]) hat.2
  case chk0 =>
    cases h
    exact .latched (by rw [hv, ovh_east, hat])
  case chk1 =>
    split_ifs at h with hc <;> cases h
    · exact .completed ⟨last.1 rfl, hc⟩
    · exact .dropped _

theorem icePutStage_writes {st : IceStage} {v : Byte} (hv : s.variant = .icemkii)
    (hst : iceStage s.index.toNat s.actsize.toNat = some st) (h : icePutStage st v s = .next t) :
    PutWrites (.icePutbyte v) v s t := by
  have hat := iceStage_at hst
  have last := iceStage_eq_chk1_iff hv hst
  cases st <;> simp only [iceStageAt] at hat <;> simp only [icePutStage] at h
  case start =>
    split_ifs at h with htoken <;> cases h
    · exact .started _ (BitVec.eq_of_toNat_eq hat) (.inr (congrArg _ htoken))
    · exact .dropped _
  case seq0 =>
    cases h
    exact .seqByte _ 0 (.inl ⟨rfl, BitVec.eq_of_toNat_eq hat⟩) rfl
  case seq1 =>
    cases h
    exact .seqByte _ 1 (.inr ⟨rfl, BitVec.eq_of_toNat_eq hat⟩) rfl
  case len0 | len1 | len2 =>
    cases h
    exact .counted _ _
  case len3 | token =>
    split_ifs at h <;> cases h
    · exact .counted _ _
    · exact .dropped _
  case data k =>
    obtain ⟨-, h⟩ := atPayload_eq_next.1 h
    cases h
    exact .stored _ k (by rw [hv, hdr_icemkii, hat.1]) hat.2
  case chk0 =>
    cases h
    exact .latched (by rw [hv, ovh_icemkii, hat])
  case chk1 =>
    split_ifs at h with hc <;> cases h
    · exact .completed ⟨last.1 rfl, hc⟩
    · exact .dropped _

theorem eastGetStage_writes {st : EastStage} (hv : s.variant = .east)
    (hst : eastStage s.index.toNat s.actsize.toNat = some st) (h : eastGetStage st s = .next t) : GetWrites s t := by
  have last := eastStage_eq_chk1_iff hv hst
  cases st <;> simp only [eastGetStage] at h
  case data =>
    obtain ⟨-, h⟩ := atPayload_eq_next.1 h
    cases h
    exact .sent _ _ fun hl => by simpa using last.2 hl
  case chk1 =>
    cases h
    exact .completed (last.1 rfl)
  all_goals
    cases h
    exact .sent _ _ fun hl => by simpa using last.2 hl

theorem iceGetStage_writes {st : IceStage} (hv : s.variant = .icemkii)
    (hst : iceStage s.index.toNat s.actsize.toNat = some st) (h : iceGetStage st s = .next t) : GetWrites s t := by
  have last := iceStage_eq_chk1_iff hv hst
  cases st <;> simp only [iceGetStage] at h
  case data =>
    obtain ⟨-, h⟩ := atPayload_eq_next.1 h
    cases h
    exact .sent _ _ fun hl => by simpa using last.2 hl
  case chk1 =>
    cases h
    exact .completed (last.1 rfl)
  all_goals
    cases h
    exact .sent _ _ fun hl => by simpa using last.2 hl

theorem setBuffer_writes {i : Instr} {m : Mode} {a : Addr} {n : Word} (hi : isSetbuf m a n i) (s : State) :
    OpWrites i s (setBuffer s.variant m a n s) := by
  obtain ⟨h, e⟩ | ⟨h, e⟩ := setBuffer_cases s.variant m a n s <;> rw [e]
  · exact .refused (.inr (.inl ⟨m, a, n, hi, h⟩))
  · exact .bound hi h

/-- Whatever an operation writes, it is one of these. -/
theorem exec_writes {i : Instr} (h : exec i s = .next t) : OpWrites i s t := by
  cases i with
  | nop =>
    cases h
    exact .answered 0 (.inl ⟨rfl, rfl⟩)
  | reserved6 | reserved7 =>
    cases h
    exact .refused (.inl (by simp))
  | reserved5 =>
    obtain ⟨-, h⟩ := onVariant_eq_next.1 h
    cases h
    exact .refused (.inl (by simp))
  | eastGetsize | iceGetsize =>
    obtain ⟨-, h⟩ := onVariant_eq_next.1 h
    cases h
    exact .answered _ (.inr (by simp))
  | iceSetseq q =>
    obtain ⟨-, h⟩ := onVariant_eq_next.1 h
    cases h
    exact .seqSet rfl
  | eastSetbuf m a n =>
    obtain ⟨hv, h⟩ := onVariant_eq_next.1 h
    cases h
    exact hv ▸ setBuffer_writes (.inl rfl) s
  | iceSetbuf m a n =>
    obtain ⟨hv, h⟩ := onVariant_eq_next.1 h
    cases h
    exact hv ▸ setBuffer_writes (.inr rfl) s
  | eastPutbyte v =>
    obtain ⟨hv, ⟨hr, rfl⟩ | ⟨hm, hc, st, hst, h⟩⟩ := execEastPutbyte_cases h
    · exact .refused ((refuses_putbyte (.inl rfl)).2 hr)
    · exact .put (.inl rfl) hm hc (eastPutStage_writes hv hst h)
  | icePutbyte v =>
    obtain ⟨hv, ⟨hr, rfl⟩ | ⟨hm, hc, st, hst, h⟩⟩ := execIcePutbyte_cases h
    · exact .refused ((refuses_putbyte (.inr rfl)).2 hr)
    · exact .put (.inr rfl) hm hc (icePutStage_writes hv hst h)
  | eastGetbyte =>
    obtain ⟨hv, ⟨hr, rfl⟩ | ⟨hm, hc, st, hst, h⟩⟩ := execEastGetbyte_cases h
    · exact .refused ((refuses_getbyte (.inl rfl)).2 hr)
    · exact .got (.inl rfl) hm hc (eastGetStage_writes hv hst h)
  | iceGetbyte =>
    obtain ⟨hv, ⟨hr, rfl⟩ | ⟨hm, hc, st, hst, h⟩⟩ := execIceGetbyte_cases h
    · exact .refused ((refuses_getbyte (.inr rfl)).2 hr)
    · exact .got (.inr rfl) hm hc (iceGetStage_writes hv hst h)

/-- Whatever a step writes: the operation's writes, the hardware reset, or one byte of memory. -/
theorem step_writes (h : step s = .next t) :
    (∃ i, s.asked = some i ∧ OpWrites i s.taken t) ∨
    (s.resetting ∧ s.asked = none ∧ t = hardwareReset s.taken) ∨
    (s.asked = none ∧ ∃ a b, t = callerWrite a b s.taken) := by
  obtain ⟨i, hi, -, e⟩ | ⟨hr, hn, e⟩ | ⟨a, b, later, -, hn, e⟩ := step_kinds s <;> rw [e] at h
  · exact .inl ⟨i, hi, exec_writes h⟩
  · exact .inr (.inl ⟨hr, hn, (Host.Outcome.next.inj h).symm⟩)
  · exact .inr (.inr ⟨hn, a, b, (Host.Outcome.next.inj h).symm⟩)

end

/-! ## Frames: what the operations leave unchanged -/

section
variable {i : Instr} {v : Byte} {s t : State}

/-- `PUTBYTE` leaves the binding, the variant and the caller's moves alone. -/
theorem PutWrites.frame (h : PutWrites i v s t) :
    t.variant = s.variant ∧ t.bufptr = s.bufptr ∧ t.maxsize = s.maxsize ∧ t.mode = s.mode ∧ t.inbox = s.inbox := by
  cases h <;> exact ⟨rfl, rfl, rfl, rfl, rfl⟩

/-- `GETBYTE` writes `CHK`, `INDEX` and `COMPLETE` alone. -/
theorem GetWrites.frame (h : GetWrites s t) :
    t = { s with
      chk := t.chk, index := t.index, complete := t.complete, response := t.response, txc := t.txc, rxc := t.rxc } := by
  cases h <;> rfl

/-- A `GETBYTE` is refused, or makes its writes in a serialiser. -/
theorem exec_getbyte_writes (hi : isGetbyte i) (h : exec i s = .next t) :
    (s.refuses i ∧ t = answer ⟨.error, 0, 0⟩ false false s) ∨
      (s.mode = .output ∧ s.complete = false ∧ GetWrites s t) := by
  cases exec_writes h with
  | refused hr => exact .inl ⟨hr, rfl⟩
  | put hp => exact absurd hp (not_isPutbyte_of_isGetbyte hi)
  | got _ hm hc hg => exact .inr ⟨hm, hc, hg⟩
  | bound hb => obtain rfl | rfl := hi <;> simp [isSetbuf] at hb
  | seqSet hq => obtain rfl | rfl := hi <;> cases hq
  | answered _ ha => obtain rfl | rfl := hi <;> simp at ha

theorem exec_getbyte_frame (hi : isGetbyte i) (h : exec i s = .next t) :
    t = { s with
      chk := t.chk, index := t.index, complete := t.complete, response := t.response, txc := t.txc, rxc := t.rxc } := by
  obtain ⟨-, rfl⟩ | ⟨-, -, hg⟩ := exec_getbyte_writes hi h
  · rfl
  · exact hg.frame

/-- Settles O21: `exec_getbyte_frame`. -/
theorem getbyteFrame : Obligations.GetbyteFrame := by
  intro s t h
  have frame := h.elim (exec_getbyte_frame (.inl rfl)) (exec_getbyte_frame (.inr rfl))
  refine ⟨fun a => ?_, frame⟩
  rw [frame]

/-- Settles O22: `SETBUF`, `SETSEQ` and the operations that only answer, each with the registers it writes. -/
theorem otherOperationsFrame : Obligations.OtherOperationsFrame := by
  intro s t i h hep hip heg hig
  cases exec_writes h with
  | refused | answered => exact ⟨fun _ => rfl, rfl, rfl, fun _ => rfl, fun _ _ => rfl⟩
  | put hp => exact (hp.elim (hep _) (hip _)).elim
  | got hg => exact (hg.elim heg hig).elim
  | bound hb => exact ⟨fun _ => rfl, rfl, rfl, fun _ => rfl, fun he hi => (hb.elim (he _ _ _) (hi _ _ _)).elim⟩
  | seqSet hq => exact ⟨fun _ => rfl, rfl, rfl, fun hn => (hn _ hq).elim, fun _ _ => rfl⟩

/-- What a payload stage does to memory, and that no other stage touches it. -/
theorem eastPutStage_mem {st : EastStage} (h : eastPutStage st v s = .next t) :
    (∀ k, st = .data k → t.mem = s.mem.write (payloadAddr s k) v) ∧ ((∀ k, st ≠ .data k) → t.mem = s.mem) := by
  cases st <;> simp only [eastPutStage] at h
  case data k =>
    obtain ⟨-, h⟩ := atPayload_eq_next.1 h
    cases h
    exact ⟨fun _ e => by cases e; rfl, fun hn => (hn k rfl).elim⟩
  case len0 | chk0 =>
    cases h
    exact ⟨nofun, fun _ => rfl⟩
  case start | len1 | stop | chk1 => split_ifs at h <;> cases h <;> exact ⟨nofun, fun _ => rfl⟩

/-- What a payload stage does to memory, and that no other stage touches it. -/
theorem icePutStage_mem {st : IceStage} (h : icePutStage st v s = .next t) :
    (∀ k, st = .data k → t.mem = s.mem.write (payloadAddr s k) v) ∧ ((∀ k, st ≠ .data k) → t.mem = s.mem) := by
  cases st <;> simp only [icePutStage] at h
  case data k =>
    obtain ⟨-, h⟩ := atPayload_eq_next.1 h
    cases h
    exact ⟨fun _ e => by cases e; rfl, fun hn => (hn k rfl).elim⟩
  case start | len3 | token | chk1 => split_ifs at h <;> cases h <;> exact ⟨nofun, fun _ => rfl⟩
  all_goals
    cases h
    exact ⟨nofun, fun _ => rfl⟩

/-- The operation `i` is a `PUTBYTE` that an accepting parser meets at payload byte `k`. -/
def State.putsPayload (s : State) (v : Byte) (i : Instr) (k : Nat) : Prop :=
  s.mode = .input ∧ s.complete = false ∧
    (i = .eastPutbyte v ∧ eastStage s.index.toNat s.actsize.toNat = some (.data k) ∨
      i = .icePutbyte v ∧ iceStage s.index.toNat s.actsize.toNat = some (.data k))

theorem exec_putbyte_mem (hi : isPutbyte v i) (h : exec i s = .next t) :
    (∀ k, s.putsPayload v i k → t.mem = s.mem.write (payloadAddr s k) v) ∧
      ((∀ k, ¬s.putsPayload v i k) → t.mem = s.mem) := by
  obtain rfl | rfl := hi
  · obtain ⟨-, ⟨hr, rfl⟩ | ⟨hm, hc, st, hst, h⟩⟩ := execEastPutbyte_cases h
    · refine ⟨fun k ⟨hm, hc, _⟩ => ?_, fun _ => rfl⟩
      simp [hm, hc] at hr
    · obtain ⟨data, other⟩ := eastPutStage_mem h
      have stage (k : Nat) : s.putsPayload v (.eastPutbyte v) k ↔ st = .data k := by
        simp [State.putsPayload, hm, hc, hst]
      simpa only [stage] using ⟨data, other⟩
  · obtain ⟨-, ⟨hr, rfl⟩ | ⟨hm, hc, st, hst, h⟩⟩ := execIcePutbyte_cases h
    · refine ⟨fun k ⟨hm, hc, _⟩ => ?_, fun _ => rfl⟩
      simp [hm, hc] at hr
    · obtain ⟨data, other⟩ := icePutStage_mem h
      have stage (k : Nat) : s.putsPayload v (.icePutbyte v) k ↔ st = .data k := by
        simp [State.putsPayload, hm, hc, hst]
      simpa only [stage] using ⟨data, other⟩

/-- `PUTBYTE` keeps `SEQ` but for the two sequence bytes of an ICEMKII header. -/
theorem PutWrites.seq (h : PutWrites i v s t) :
    t.seq = s.seq ∨
      i = .icePutbyte v ∧ ∃ j, (j = 0 ∧ s.index = 1 ∨ j = 1 ∧ s.index = 2) ∧ t.seq = setByte s.seq j v := by
  cases h with
  | seqByte c j hj hi => exact .inr ⟨hi, j, hj, rfl⟩
  | _ => exact .inl rfl

/-- A `PUTBYTE` is refused, or makes its writes in a parser. -/
theorem exec_putbyte_writes (hi : isPutbyte v i) (h : exec i s = .next t) :
    (s.refuses i ∧ t = answer ⟨.error, 0, 0⟩ false false s) ∨
      (s.mode = .input ∧ s.complete = false ∧ PutWrites i v s t) := by
  cases exec_writes h with
  | refused hr => exact .inl ⟨hr, rfl⟩
  | put hw hm hc hp => exact .inr ⟨hm, hc, isPutbyte_unique hw hi ▸ hp⟩
  | got hg => exact absurd hi (not_isPutbyte_of_isGetbyte hg)
  | bound hb => obtain rfl | rfl := hi <;> simp [isSetbuf] at hb
  | seqSet hq => obtain rfl | rfl := hi <;> cases hq
  | answered _ ha => obtain rfl | rfl := hi <;> simp at ha

end

/-- Settles O20: memory by the stage met, the registers by `PutWrites`. -/
theorem putbyteFrame : Obligations.PutbyteFrame := by
  intro s t v i hi h payload
  obtain ⟨stored, kept⟩ := exec_putbyte_mem hi h
  refine ⟨fun k hk => ?stored, fun hn a => ?kept, ?registers⟩
  case stored =>
    rw [stored k hk]
    exact ⟨Memory.read_write_same _ _ _, fun a ha => Memory.read_write_other _ _ ha⟩
  case kept => rw [kept hn]
  case registers =>
    obtain ⟨-, rfl⟩ | ⟨-, -, hp⟩ := exec_putbyte_writes hi h
    · exact ⟨rfl, rfl, rfl, rfl, rfl, fun _ => rfl⟩
    · obtain ⟨variant, bufptr, maxsize, mode, inbox⟩ := hp.frame
      refine ⟨bufptr, maxsize, mode, variant, inbox, fun hseq => ?_⟩
      obtain e | ⟨hice, j, hj, -⟩ := hp.seq
      · exact e
      · obtain heast | ⟨h1, h2⟩ := hseq
        · rw [heast] at hice
          cases hice
        · obtain ⟨-, hj⟩ | ⟨-, hj⟩ := hj
          · exact absurd (congrArg BitVec.toNat hj) h1
          · exact absurd (congrArg BitVec.toNat hj) h2

/-! ## The registers, each with the steps that write it -/

section
variable {i : Instr} {v : Byte} {s t : State}

theorem PutWrites.complete_of_set (h : PutWrites i v s t) (h0 : s.complete = false) (h1 : t.complete = true) :
    s.endsValidFrame v := by
  cases h with
  | completed hl => exact hl
  | _ => simp [h0] at h1

theorem GetWrites.complete_iff (h : GetWrites s t) (h0 : s.complete = false) : t.complete = true ↔ s.atLastByte := by
  cases h <;> simp [*]

/-- What sets `COMPLETE`. -/
theorem OpWrites.complete_of_set (h : OpWrites i s t) (h0 : s.complete = false) (h1 : t.complete = true) :
    s.atLastByte ∧ ((s.mode = .input ∧ ∃ v, isPutbyte v i ∧ receivedCheck v s.rxl = s.chk) ∨
      (s.mode = .output ∧ isGetbyte i)) := by
  cases h with
  | put hi hm _ hp =>
    obtain ⟨hl, hc⟩ := hp.complete_of_set h0 h1
    exact ⟨hl, .inl ⟨hm, _, hi, hc⟩⟩
  | got hi hm _ hg => exact ⟨(hg.complete_iff h0).1 h1, .inr ⟨hm, hi⟩⟩
  | refused | bound | seqSet | answered => simp [h0] at h1

/-- What clears `COMPLETE`. -/
theorem OpWrites.rebinds_of_complete_cleared (h : OpWrites i s t) (h0 : s.complete = true) (h1 : t.complete = false) :
    s.rebinds i := by
  cases h with
  | bound hi ha => exact ⟨_, _, _, hi, ha⟩
  | put _ _ hc | got _ _ hc => simp [h0] at hc
  | refused | seqSet | answered => simp [h0] at h1

/-- What sets `OK`. -/
theorem OpWrites.ok_of_set (h : OpWrites i s t) (h0 : s.ok = false) (h1 : t.ok = true) :
    s.mode = .input ∧ s.complete = false ∧ s.index = 0 ∧ (i = .eastPutbyte 0x24 ∨ i = .icePutbyte 0x1B) := by
  cases h with
  | put _ hm hc hp =>
    cases hp with
    | started _ hi htoken => exact ⟨hm, hc, hi, htoken⟩
    | _ => simp [h0] at h1
  | got _ _ _ hg => rw [hg.frame] at h1; simp [h0] at h1
  | refused | bound | seqSet | answered => simp [h0] at h1

/-- What clears `OK`. -/
theorem OpWrites.ok_cleared (h : OpWrites i s t) (h0 : s.ok = true) (h1 : t.ok = false) :
    s.rebinds i ∨
      ∃ v, isPutbyte v i ∧ t.index = 0 ∧ t.actsize = 0 ∧ t.response = some ⟨.inProgress, 0, 0⟩ := by
  cases h with
  | put hi _ _ hp =>
    cases hp with
    | dropped why => exact .inr ⟨_, hi, rfl, rfl, rfl⟩
    | _ => simp [h0] at h1
  | got _ _ _ hg => rw [hg.frame] at h1; simp [h0] at h1
  | bound hi ha => exact .inl ⟨_, _, _, hi, ha⟩
  | refused | seqSet | answered => simp [h0] at h1

/-- What writes the binding. -/
theorem OpWrites.binding (h : OpWrites i s t) :
    t.variant = s.variant ∧
    ((t.bufptr = s.bufptr ∧ t.maxsize = s.maxsize ∧ t.mode = s.mode) ∨
      ∃ m a n, isSetbuf m a n i ∧ ¬refusedOperands s.variant m a n ∧ t.bufptr = a ∧ t.maxsize = n ∧ t.mode = m) := by
  cases h with
  | put _ _ _ hp =>
    obtain ⟨variant, bufptr, maxsize, mode, -⟩ := hp.frame
    exact ⟨variant, .inl ⟨bufptr, maxsize, mode⟩⟩
  | got _ _ _ hg =>
    rw [hg.frame]
    exact ⟨rfl, .inl ⟨rfl, rfl, rfl⟩⟩
  | bound hi ha => exact ⟨rfl, .inr ⟨_, _, _, hi, ha, rfl, rfl, rfl⟩⟩
  | refused | seqSet | answered => exact ⟨rfl, .inl ⟨rfl, rfl, rfl⟩⟩

/-- What writes `RXL`. -/
theorem OpWrites.rxl (h : OpWrites i s t) :
    t.rxl = s.rxl ∨ (t.rxl = 0 ∧ s.rebinds i) ∨
      ∃ v, isPutbyte v i ∧ t.rxl = v ∧ s.index.toNat + 2 = s.actsize.toNat + Config.ovh s.variant := by
  cases h with
  | put hi _ _ hp =>
    cases hp with
    | latched hl => exact .inr (.inr ⟨_, hi, rfl, hl⟩)
    | _ => exact .inl rfl
  | got _ _ _ hg => exact .inl (by rw [hg.frame])
  | bound hi ha => exact .inr (.inl ⟨rfl, _, _, _, hi, ha⟩)
  | refused | seqSet | answered => exact .inl rfl

/-- What writes `SEQ`. -/
theorem OpWrites.seq (h : OpWrites i s t) :
    t.seq = s.seq ∨ (∃ q, i = .iceSetseq q ∧ t.seq = q) ∨
      ∃ v, i = .icePutbyte v ∧ s.mode = .input ∧ s.complete = false ∧
        ∃ j, (j = 0 ∧ s.index = 1 ∨ j = 1 ∧ s.index = 2) ∧ t.seq = setByte s.seq j v := by
  cases h with
  | put _ hm hc hp =>
    obtain e | ⟨hi, hj⟩ := hp.seq
    · exact .inl e
    · exact .inr (.inr ⟨_, hi, hm, hc, hj⟩)
  | got _ _ _ hg => exact .inl (by rw [hg.frame])
  | seqSet hi => exact .inr (.inl ⟨_, hi, rfl⟩)
  | refused | bound | answered => exact .inl rfl

/-- How `INDEX` moves. -/
theorem OpWrites.index (h : OpWrites i s t) :
    t.index = s.index ∨
    ((t.index = s.index + 1 ∨ t.index = 0) ∧ ((∃ v, isPutbyte v i) ∨ isGetbyte i)) ∨
    (t.index = 0 ∧ ∃ m a n, isSetbuf m a n i) := by
  cases h with
  | put hi _ _ hp =>
    refine .inr (.inl ⟨?_, .inl ⟨_, hi⟩⟩)
    cases hp with
    | dropped | completed => exact .inr rfl
    | _ => exact .inl rfl
  | got hi _ _ hg =>
    refine .inr (.inl ⟨?_, .inr hi⟩)
    cases hg with
    | sent => exact .inl rfl
    | completed => exact .inr rfl
  | bound hi => exact .inr (.inr ⟨rfl, _, _, _, hi⟩)
  | refused | seqSet | answered => exact .inl rfl

/-- What drives the response. -/
theorem OpWrites.response (h : OpWrites i s t) :
    ∃ r, t.response = some r ∧ (r.data ≠ 0 → r.status ≠ .error ∧ isGetbyte i) ∧
      (r.size ≠ 0 → i = .eastGetsize ∨ i = .iceGetsize) := by
  cases h with
  | put _ _ _ hp => cases hp <;> exact ⟨_, rfl, by simp⟩
  | got hi _ _ hg => cases hg <;> exact ⟨_, rfl, by simp [hi]⟩
  | answered n hi => exact ⟨_, rfl, by simp, fun hn => hi.elim (fun h => absurd h.2 hn) id⟩
  | refused | bound | seqSet => exact ⟨_, rfl, by simp⟩

/-- An operation stores only inside the bound window. -/
theorem OpWrites.read_outside (h : OpWrites i s t) (hinv : s.Inv) {a : Nat}
    (ha : a < s.bufptr.toNat ∨ s.bufptr.toNat + s.maxsize.toNat ≤ a) : t.mem.read a = s.mem.read a := by
  cases h with
  | put _ _ _ hp =>
    cases hp with
    | stored c k hi hk =>
      have hsize := hinv.actsize_le (by rw [hi]; omega)
      exact Memory.read_write_other _ _ (by rw [payloadAddr]; omega)
    | _ => rfl
  | got _ _ _ hg => rw [hg.frame]
  | refused | bound | seqSet | answered => rfl

end

/-! ## The obligations about the registers -/

/-- Settles O23: `OpWrites.binding`; a memory write and the idle ports bind nothing. -/
theorem bindingIsWrittenOnlyBySetbufAndReset : Obligations.BindingIsWrittenOnlyBySetbufAndReset := by
  intro s t h
  obtain ⟨i, hi, hw⟩ | ⟨hr, -, rfl⟩ | ⟨-, a, b, rfl⟩ := step_writes h
  · simp only [hi, Option.some_inj]
    exact ⟨hw.binding.1, .inr hw.binding.2⟩
  · exact ⟨rfl, .inl hr⟩
  · exact ⟨rfl, .inr (.inl ⟨rfl, rfl, rfl⟩)⟩

/-- Settles O24: `OpWrites.complete_of_set` and `OpWrites.rebinds_of_complete_cleared`. -/
theorem completeIsSetAndClearedOnlyAsItsRuleSays : Obligations.CompleteIsSetAndClearedOnlyAsItsRuleSays := by
  intro s t _ h
  obtain ⟨i, hi, hw⟩ | ⟨hr, -, rfl⟩ | ⟨-, a, b, rfl⟩ := step_writes h
  · simp only [hi, Option.some_inj]
    exact ⟨hw.complete_of_set, fun h0 h1 => .inr (hw.rebinds_of_complete_cleared h0 h1)⟩
  · exact ⟨fun _ h1 => by simp at h1, fun _ _ => .inl hr⟩
  · exact ⟨fun h0 h1 => by simp [h0] at h1, fun h0 h1 => by simp [h0] at h1⟩

/-- Settles O25: `OpWrites.ok_of_set` and `OpWrites.ok_cleared`. -/
theorem okIsWrittenOnlyAsItsRuleSays : Obligations.OkIsWrittenOnlyAsItsRuleSays := by
  intro s t h
  obtain ⟨i, hi, hw⟩ | ⟨hr, -, rfl⟩ | ⟨-, a, b, rfl⟩ := step_writes h
  · simp only [hi, Option.some_inj]
    exact ⟨hw.ok_of_set, fun h0 h1 => .inr (hw.ok_cleared h0 h1)⟩
  · exact ⟨fun _ h1 => by simp at h1, fun _ _ => .inl hr⟩
  · exact ⟨fun h0 h1 => by simp [h0] at h1, fun h0 h1 => by simp [h0] at h1⟩

/-- Settles O28: `OpWrites.seq`, and the laws of a byte written into a field. -/
theorem seqIsWrittenOnlyByItsBytesSetseqAndReset : Obligations.SeqIsWrittenOnlyByItsBytesSetseqAndReset := by
  intro s t h
  obtain ⟨i, hi, hw⟩ | ⟨hr, -, rfl⟩ | ⟨-, a, b, rfl⟩ := step_writes h
  · simp only [hi, Option.some_inj]
    obtain e | hset | ⟨v, hput, hm, hc, j, hj, e⟩ := hw.seq
    · exact .inl e
    · exact .inr (.inr (.inl hset))
    · refine .inr (.inr (.inr ⟨v, hput, hm, hc, ?_⟩))
      rw [e]
      obtain ⟨rfl, hindex⟩ | ⟨rfl, hindex⟩ := hj
      · exact .inl ⟨hindex, byteOf_setByte_self _ v (by decide), byteOf_setByte_of_ne (k := 1) _ v (by decide)⟩
      · exact .inr ⟨hindex, byteOf_setByte_self _ v (by decide), byteOf_setByte_of_ne (k := 0) _ v (by decide)⟩
  · exact .inr (.inl ⟨hr, rfl⟩)
  · exact .inl rfl

/-- Settles O30: `OpWrites.index`; under the invariant the advance does not wrap. -/
theorem indexStaysAdvancesOrReturnsToZero : Obligations.IndexStaysAdvancesOrReturnsToZero := by
  intro s t hinv h
  obtain ⟨i, hi, hw⟩ | ⟨hr, -, rfl⟩ | ⟨-, a, b, rfl⟩ := step_writes h
  · obtain e | ⟨e, hmoves⟩ | ⟨e, hset⟩ := hw.index
    · exact ⟨.inl e, fun hne => absurd e hne⟩
    · refine ⟨?_, fun _ => .inr ⟨i, hi, hmoves.imp_right fun hg => hg.imp_right .inl⟩⟩
      obtain e | e := e
      · exact .inr (.inl (by rw [e, taken_index, hinv.index_succ]))
      · exact .inr (.inr e)
    · exact ⟨.inr (.inr e), fun _ => .inr ⟨i, hi, .inr (.inr (.inr ⟨e, hset⟩))⟩⟩
  · exact ⟨.inr (.inr rfl), fun _ => .inl hr⟩
  · exact ⟨.inl rfl, fun hne => absurd rfl hne⟩

/-- Settles O33: `OpWrites.response`; a step that executes no operation gives no response. -/
theorem responsePortsFollowTheirRule : Obligations.ResponsePortsFollowTheirRule := by
  refine ⟨fun s t h => ?_, rfl, rfl, rfl, fun st => by cases st <;> decide⟩
  obtain ⟨i, hi, hw⟩ | ⟨-, hn, rfl⟩ | ⟨hn, a, b, rfl⟩ := step_writes h
  · obtain ⟨r, hr, hports⟩ := hw.response
    simp only [hi, hr, Option.some_inj, reduceCtorEq, true_and]
    rintro _ rfl
    exact hports
  · simp [hn]
  · simp [hn]

/-! ## The bound window (20_memory.md section 4) -/

/-- A payload stage stands past the header, at a byte of the payload. -/
theorem hdr_le_of_payloadStage {s : State} {k : Nat}
    (hk : eastStage s.index.toNat s.actsize.toNat = some (.data k) ∧ s.variant = .east ∨
      iceStage s.index.toNat s.actsize.toNat = some (.data k) ∧ s.variant = .icemkii) :
    Config.hdr s.variant ≤ s.index.toNat ∧ k < s.actsize.toNat := by
  obtain ⟨hst, hv⟩ | ⟨hst, hv⟩ := hk
  · obtain ⟨hi, hlt⟩ := eastStage_at hst
    rw [hv, hdr_east]
    omega
  · obtain ⟨hi, hlt⟩ := iceStage_at hst
    rw [hv, hdr_icemkii]
    omega

/-- Settles O37: past the header the payload length is known and fits the buffer; `OpWrites.read_outside`. -/
theorem accessesStayInTheBoundWindow : Obligations.AccessesStayInTheBoundWindow := by
  intro s hinv
  refine ⟨fun k hk => ?_, fun t a hasked h ha => ?_⟩
  · obtain ⟨hi, hlt⟩ := hdr_le_of_payloadStage hk
    exact ⟨Nat.le_add_right _ _, Nat.add_lt_add_left hlt _, (hinv.actsize_le hi).2, hinv.payload_inside hi hlt⟩
  · obtain ⟨i, -, hw⟩ | ⟨-, hn, -⟩ | ⟨hn, -⟩ := step_writes h
    · exact hw.read_outside hinv.taken ha
    · exact absurd hn hasked
    · exact absurd hn hasked

/-- No frame is complete in an empty buffer, and none is past its header. -/
theorem State.Inv.of_emptyInput {s : State} (h : s.Inv) (hm : s.mode = .input) (hz : s.maxsize = 0) :
    s.complete = false ∧ s.index.toNat < Config.hdr s.variant := by
  have nonempty : ¬(1 ≤ s.actsize.toNat ∧ s.actsize.toNat ≤ s.maxsize.toNat) := by
    rw [hz]
    simp
    omega
  refine ⟨Bool.eq_false_iff.2 fun hc => ?_, Nat.lt_of_not_le fun hi => ?_⟩
  · obtain ⟨-, -, hsize⟩ := h.parsedFrame hm hc
    exact nonempty hsize
  · exact nonempty (h.payloadLength hm hi)

/-- Settles O40: the byte is answered, every address lies outside an empty window, and the next state satisfies the
invariant with the same binding. -/
theorem emptyBindingAcceptsNoFrame : Obligations.EmptyBindingAcceptsNoFrame := by
  intro s v i hinv hm hz hi
  have hwf : i.wf s.variant = true := by
    obtain ⟨rfl, hv⟩ | ⟨rfl, hv⟩ := hi <;> rw [hv] <;> rfl
  have hput : isPutbyte v i := hi.imp And.left And.left
  obtain ⟨t, h⟩ := exec_total hinv hwf
  have ht := exec_inv hinv h
  have hw := exec_writes h
  have binding : t.mode = .input ∧ t.maxsize = 0 ∧ t.variant = s.variant := by
    obtain ⟨-, rfl⟩ | ⟨-, -, hp⟩ := exec_putbyte_writes hput h
    · exact ⟨hm, hz, rfl⟩
    · obtain ⟨variant, -, maxsize, mode, -⟩ := hp.frame
      exact ⟨mode.trans hm, maxsize.trans hz, variant⟩
  obtain ⟨hm', hz', hv'⟩ := binding
  obtain ⟨hc, hindex⟩ := ht.of_emptyInput hm' hz'
  refine ⟨t, h, fun a => hw.read_outside hinv ?_, hc, hm', hz', hv' ▸ hindex⟩
  rw [hz]
  exact Nat.lt_or_ge _ _

/-! ## The reported size (R127, R157) -/

/-- The longest frame is shorter than `INDEX` can count. -/
theorem limit_add_ovh_lt (v : Variant) : Config.limit v + Config.ovh v < 2 ^ 32 := by cases v <;> decide

theorem hdr_le_ovh (v : Variant) : Config.hdr v ≤ Config.ovh v := by cases v <;> decide

/-- In output mode, before completion, the reported size is what is left of the frame. -/
theorem State.Inv.packetSize_output {s : State} (h : s.Inv) (hm : s.mode = .output) (hc : s.complete = false) :
    (packetSize s.variant s).toNat + s.index.toNat = s.actsize.toNat + Config.ovh s.variant := by
  obtain ⟨h1, hsize, hlimit, -⟩ := h.outputBinding hm
  have hb := h.indexBound
  rw [← hsize] at hlimit
  rw [packetSize_eq_ite, if_pos hm, hc, if_neg (by decide), BitVec.toNat_ofNat]
  have hwidth := limit_add_ovh_lt s.variant
  have hheader := hdr_le_ovh s.variant
  omega

/-- Once a frame is sent nothing is left of it. -/
theorem packetSize_of_complete {v : Variant} {s : State} (hm : s.mode = .output) (hc : s.complete = true) :
    packetSize v s = 0 := by
  rw [packetSize_eq_ite, if_pos hm, if_pos hc]

/-- Settles O19: a byte that is not the last leaves one less, and the last one leaves nothing. -/
theorem reportedSizeFallsByOneWithEachGetbyte : Obligations.ReportedSizeFallsByOneWithEachGetbyte := by
  intro s t hinv hm hc hexec
  obtain ⟨i, hi, h⟩ : ∃ i, isGetbyte i ∧ exec i s = .next t :=
    hexec.elim (fun h => ⟨_, .inl rfl, h⟩) (fun h => ⟨_, .inr rfl, h⟩)
  have ht := exec_inv hinv h
  have size := hinv.packetSize_output hm hc
  obtain ⟨hr, -⟩ | ⟨-, -, hg⟩ := exec_getbyte_writes hi h
  · simp [refuses_getbyte hi, hm, hc] at hr
  cases hg with
  | sent b c hl =>
    have size' := ht.packetSize_output hm hc
    have advanced : (emit b { s with chk := c }).index.toNat = s.index.toNat + 1 := hinv.index_succ
    have kept : (emit b { s with chk := c }).actsize.toNat + Config.ovh (emit b { s with chk := c }).variant =
        s.actsize.toNat + Config.ovh s.variant := rfl
    rw [State.atLastByte] at hl
    refine ⟨by omega, ?_⟩
    rw [emit_eq, answer_complete, advance_complete, hc]
    simp
    omega
  | completed hl =>
    rw [State.atLastByte] at hl
    have last : (packetSize s.variant s).toNat = 1 := by omega
    refine ⟨?_, fun _ => last, fun _ => rfl⟩
    rw [last, packetSize_of_complete (s := emitLast (byteOf s.chk 1) s) hm rfl]
    rfl

end Sys2Proof.Machine

/-! PROOFS. What no operation reads: two states that differ only in `OK` (R29), in the `SEQ` field of an EAST instance
(R20), in `RXL` away from the last byte of a frame (R28), or in memory outside the bound window (R56) give the same
answer, up to the field in question. -/

namespace Sys2Proof.Machine

/-! ## When a change to the state makes no difference to an operation

`f` forgets the field in question; `s.vary` is the state with that field changed. -/

/-- `s` with other values of the four fields that not every operation reads. -/
def State.vary (s : State) (q : Half) (r : Byte) (o : Bool) (m : Memory) : State :=
  { s with seq := q, rxl := r, ok := o, mem := m }

/-- The same write made of the two states agrees up to `f`, for every write that a step makes. -/
structure SameWrites (f : State → State) (s s' : State) : Prop where
  answer (r : Response) (x y : Bool) : f (answer r x y s') = f (answer r x y s)
  bound (m : Mode) (a : Addr) (n : Word) : f (bindBuffer m a n s') = f (bindBuffer m a n s)
  seqSet (q : Half) : f (respond .inProgress { s' with seq := q }) = f (respond .inProgress { s with seq := q })
  started (c : Half) : f (accept { s' with ok := true, chk := c, actsize := 0 }) =
    f (accept { s with ok := true, chk := c, actsize := 0 })
  seqByte (c q : Half) : f (accept { s' with seq := q, chk := c }) = f (accept { s with seq := q, chk := c })
  counted (c : Half) (l : Word) :
    f (accept { s' with actsize := l, chk := c }) = f (accept { s with actsize := l, chk := c })
  stored (c : Half) (a : Nat) (v : Byte) :
    f (accept { s'.storeByte a v with chk := c }) = f (accept { s.storeByte a v with chk := c })
  latched (v : Byte) : f (accept { s' with rxl := v }) = f (accept { s with rxl := v })
  dropped (why : MalformCause) : f (malformed why s') = f (malformed why s)
  completed : f (acceptLast s') = f (acceptLast s)
  sent (b : Byte) (c : Half) : f (emit b { s' with chk := c }) = f (emit b { s with chk := c })
  sentLast (b : Byte) : f (emitLast b s') = f (emitLast b s)
  reset : f (hardwareReset s') = f (hardwareReset s)
  memWrite (a : Addr) (b : Byte) : f (callerWrite a b s') = f (callerWrite a b s)

/-- The operation `i` executed in `s` does not tell `s` from `s.vary q r o m`: `RXL` is read at the last byte of a frame
put, `SEQ` by an ICEMKII instance, memory at a payload byte got, and `OK` never. -/
structure Unread (i : Instr) (s : State) (q : Half) (r : Byte) (o : Bool) (m : Memory) : Prop where
  rxl (v : Byte) : isPutbyte v i → s.mode = .input → s.atLastByte → r = s.rxl
  seq : s.variant = .icemkii → q = s.seq
  byteAt (k : Nat) : Config.hdr s.variant ≤ s.index.toNat → k < s.actsize.toNat →
    (s.vary q r o m).byteAt (payloadAddr s k) = s.byteAt (payloadAddr s k)

/-- Two conditional answers with equivalent conditions. -/
theorem mapState_ite {f : State → State} {c c' : Prop} [Decidable c] [Decidable c'] {t t' u u' : State} (hc : c' ↔ c)
    (ht : f t' = f t) (hu : f u' = f u) :
    Result.mapState f (if c' then .next t' else .next u') = Result.mapState f (if c then .next t else .next u) := by
  by_cases h : c
  · rw [if_pos h, if_pos (hc.2 h)]
    exact congrArg Host.Outcome.next ht
  · rw [if_neg h, if_neg (mt hc.1 h)]
    exact congrArg Host.Outcome.next hu

section
variable {i : Instr} {s : State} {q : Half} {r : Byte} {o : Bool} {m : Memory}

@[simp] theorem vary_index : (s.vary q r o m).index = s.index := rfl
@[simp] theorem vary_actsize : (s.vary q r o m).actsize = s.actsize := rfl
@[simp] theorem putCheck_vary : putCheck (s.vary q r o m) = putCheck s := rfl
@[simp] theorem getCheck_vary : getCheck (s.vary q r o m) = getCheck s := rfl

variable {f : State → State} (hw : SameWrites f s (s.vary q r o m))
include hw

/-! ### One stage -/

theorem eastPutStage_vary {st : EastStage} (hr : st = .chk1 → r = s.rxl) (v : Byte) :
    Result.mapState f (eastPutStage st v (s.vary q r o m)) = Result.mapState f (eastPutStage st v s) := by
  cases st
  case start => exact mapState_ite Iff.rfl (hw.started _) (hw.dropped _)
  case len0 => exact congrArg Host.Outcome.next (hw.counted s.chk _)
  case len1 => exact mapState_ite Iff.rfl (hw.counted s.chk _) (hw.dropped _)
  case data k =>
    rw [eastPutStage, eastPutStage]
    exact atPayload_mapState f rfl fun a => congrArg Host.Outcome.next (hw.stored _ a v)
  case stop => exact mapState_ite Iff.rfl (hw.counted s.chk s.actsize) (hw.dropped _)
  case chk0 => exact congrArg Host.Outcome.next (hw.latched v)
  case chk1 =>
    obtain rfl := hr rfl
    exact mapState_ite Iff.rfl hw.completed (hw.dropped _)

theorem icePutStage_vary {st : IceStage} (hr : st = .chk1 → r = s.rxl) (hq : q = s.seq) (v : Byte) :
    Result.mapState f (icePutStage st v (s.vary q r o m)) = Result.mapState f (icePutStage st v s) := by
  subst hq
  cases st
  case start => exact mapState_ite Iff.rfl (hw.started _) (hw.dropped _)
  case seq0 | seq1 => exact congrArg Host.Outcome.next (hw.seqByte _ _)
  case len0 | len1 | len2 => exact congrArg Host.Outcome.next (hw.counted _ _)
  case len3 => exact mapState_ite Iff.rfl (hw.counted _ _) (hw.dropped _)
  case token => exact mapState_ite Iff.rfl (hw.counted _ s.actsize) (hw.dropped _)
  case data k =>
    rw [icePutStage, icePutStage]
    exact atPayload_mapState f rfl fun a => congrArg Host.Outcome.next (hw.stored _ a v)
  case chk0 => exact congrArg Host.Outcome.next (hw.latched v)
  case chk1 =>
    obtain rfl := hr rfl
    exact mapState_ite Iff.rfl hw.completed (hw.dropped _)

omit hw in
/-- A payload byte got is the same in both states, where its address lies in memory. -/
theorem atPayload_byteAt_vary {k : Nat}
    (hb : (s.vary q r o m).byteAt (payloadAddr s k) = s.byteAt (payloadAddr s k)) {u u' : Byte → State}
    (hu : ∀ b, f (u' b) = f (u b)) :
    Result.mapState f (atPayload (s.vary q r o m) k fun a => .next (u' ((s.vary q r o m).byteAt a))) =
      Result.mapState f (atPayload s k fun a => .next (u (s.byteAt a))) := by
  by_cases ha : payloadAddr s k < Config.addrSpace
  · rw [atPayload_inside ha, atPayload_inside (s := s.vary q r o m) ha]
    exact congrArg Host.Outcome.next (hb ▸ hu _)
  · rw [atPayload, atPayload, if_neg ha]
    exact congrArg (Result.mapState f) (if_neg ha)

theorem eastGetStage_vary {st : EastStage}
    (hb : ∀ k, st = .data k → (s.vary q r o m).byteAt (payloadAddr s k) = s.byteAt (payloadAddr s k)) :
    Result.mapState f (eastGetStage st (s.vary q r o m)) = Result.mapState f (eastGetStage st s) := by
  cases st
  case data k => exact atPayload_byteAt_vary (hb k rfl) fun b => hw.sent b _
  case chk1 => exact congrArg Host.Outcome.next (hw.sentLast _)
  all_goals exact congrArg Host.Outcome.next (hw.sent _ _)

theorem iceGetStage_vary {st : IceStage} (hq : q = s.seq)
    (hb : ∀ k, st = .data k → (s.vary q r o m).byteAt (payloadAddr s k) = s.byteAt (payloadAddr s k)) :
    Result.mapState f (iceGetStage st (s.vary q r o m)) = Result.mapState f (iceGetStage st s) := by
  subst hq
  cases st
  case data k => exact atPayload_byteAt_vary (hb k rfl) fun b => hw.sent b _
  case chk1 => exact congrArg Host.Outcome.next (hw.sentLast _)
  all_goals exact congrArg Host.Outcome.next (hw.sent _ _)

/-! ### One operation -/

omit hw in
/-- An answer that the varied state gives too, up to `f`, is given through the same variant check. -/
theorem onVariant_vary {v : Variant} {x x' : Result} (h : s.variant = v → Result.mapState f x' = Result.mapState f x) :
    Result.mapState f (onVariant v (s.vary q r o m) x') = Result.mapState f (onVariant v s x) := by
  by_cases hv : s.variant = v
  · rw [onVariant_self hv, onVariant_self (s := s.vary q r o m) hv]
    exact h hv
  · rw [onVariant, onVariant, if_neg hv]
    exact congrArg (Result.mapState f) (if_neg hv)

theorem setBuffer_vary (v : Variant) (mode : Mode) (a : Addr) (n : Word) :
    f (setBuffer v mode a n (s.vary q r o m)) = f (setBuffer v mode a n s) := by
  by_cases hr : refusedOperands v mode a n
  · rw [setBuffer_of_refused hr, setBuffer_of_refused hr]
    exact hw.answer _ _ _
  · rw [setBuffer_of_accepted hr, setBuffer_of_accepted hr]
    exact hw.bound mode a n

theorem execEastPutbyte_vary {v : Byte} (h : Unread (.eastPutbyte v) s q r o m) :
    Result.mapState f (execEastPutbyte v (s.vary q r o m)) = Result.mapState f (execEastPutbyte v s) := by
  refine onVariant_vary fun hv => ?_
  rw [putCheck_vary, vary_index, vary_actsize]
  cases hp : putCheck s with
  | some why => exact congrArg Host.Outcome.next (hw.answer _ _ _)
  | none =>
    obtain ⟨hm, -⟩ := (putCheck_eq_none s).1 hp
    cases hst : eastStage s.index.toNat s.actsize.toNat with
    | none => rfl
    | some st =>
      exact eastPutStage_vary hw (fun hl => h.rxl v (.inl rfl) hm ((eastStage_eq_chk1_iff hv hst).1 hl)) v

theorem execEastGetbyte_vary (h : Unread i s q r o m) :
    Result.mapState f (execEastGetbyte (s.vary q r o m)) = Result.mapState f (execEastGetbyte s) := by
  refine onVariant_vary fun hv => ?_
  rw [getCheck_vary, vary_index, vary_actsize]
  cases getCheck s with
  | some why => exact congrArg Host.Outcome.next (hw.answer _ _ _)
  | none =>
    cases hst : eastStage s.index.toNat s.actsize.toNat with
    | none => rfl
    | some st =>
      refine eastGetStage_vary hw fun k hk => ?_
      obtain ⟨hi, hlt⟩ := hdr_le_of_payloadStage (.inl ⟨hk ▸ hst, hv⟩)
      exact h.byteAt k hi hlt

theorem execIcePutbyte_vary {v : Byte} (h : Unread (.icePutbyte v) s q r o m) :
    Result.mapState f (execIcePutbyte v (s.vary q r o m)) = Result.mapState f (execIcePutbyte v s) := by
  refine onVariant_vary fun hv => ?_
  rw [putCheck_vary, vary_index, vary_actsize]
  cases hp : putCheck s with
  | some why => exact congrArg Host.Outcome.next (hw.answer _ _ _)
  | none =>
    obtain ⟨hm, -⟩ := (putCheck_eq_none s).1 hp
    cases hst : iceStage s.index.toNat s.actsize.toNat with
    | none => rfl
    | some st =>
      exact icePutStage_vary hw (fun hl => h.rxl v (.inr rfl) hm ((iceStage_eq_chk1_iff hv hst).1 hl)) (h.seq hv) v

theorem execIceGetbyte_vary (h : Unread i s q r o m) :
    Result.mapState f (execIceGetbyte (s.vary q r o m)) = Result.mapState f (execIceGetbyte s) := by
  refine onVariant_vary fun hv => ?_
  rw [getCheck_vary, vary_index, vary_actsize]
  cases getCheck s with
  | some why => exact congrArg Host.Outcome.next (hw.answer _ _ _)
  | none =>
    cases hst : iceStage s.index.toNat s.actsize.toNat with
    | none => rfl
    | some st =>
      refine iceGetStage_vary hw (h.seq hv) fun k hk => ?_
      obtain ⟨hi, hlt⟩ := hdr_le_of_payloadStage (.inr ⟨hk ▸ hst, hv⟩)
      exact h.byteAt k hi hlt

/-- The operation gives the same answer in both states, up to `f`. -/
theorem exec_vary (h : Unread i s q r o m) :
    Result.mapState f (exec i (s.vary q r o m)) = Result.mapState f (exec i s) := by
  have answers (x : Response) : Result.mapState f (.next (answer x false false (s.vary q r o m))) =
      Result.mapState f (.next (answer x false false s)) := congrArg Host.Outcome.next (hw.answer x _ _)
  cases i with
  | nop | reserved6 | reserved7 => exact answers _
  | reserved5 | eastGetsize | iceGetsize => exact onVariant_vary fun _ => answers _
  | iceSetseq q => exact onVariant_vary fun _ => congrArg Host.Outcome.next (hw.seqSet q)
  | eastSetbuf mode a n | iceSetbuf mode a n =>
    exact onVariant_vary fun _ => congrArg Host.Outcome.next (setBuffer_vary hw _ mode a n)
  | eastPutbyte v => exact execEastPutbyte_vary hw h
  | icePutbyte v => exact execIcePutbyte_vary hw h
  | eastGetbyte => exact execEastGetbyte_vary hw h
  | iceGetbyte => exact execIceGetbyte_vary hw h

end

/-! ### One step -/

/-- A step gives the same answer in both states, up to `f`. -/
theorem step_vary {f : State → State} {s : State} {q : Half} {r : Byte} {o : Bool} {m : Memory}
    (hw : SameWrites f s.taken (s.taken.vary q r o m)) (h : ∀ i, s.asked = some i → Unread i s.taken q r o m) :
    Result.mapState f (step (s.vary q r o m)) = Result.mapState f (step s) := by
  obtain ⟨i, hi, -, e⟩ | ⟨hr, -, e⟩ | ⟨a, b, later, hin, -, e⟩ := step_kinds s
  · rw [e, step_asked (s := s.vary q r o m) hi]
    exact exec_vary hw (h i hi)
  · rw [e, step_rst (s := s.vary q r o m) hr]
    exact congrArg Host.Outcome.next hw.reset
  · rw [e, step_memWrite (s := s.vary q r o m) hin]
    exact congrArg Host.Outcome.next (hw.memWrite a b)

/-! ## `OK` -/

/-- Forget `OK`. -/
def State.forgetOk (s : State) : State := { s with ok := false }

theorem sameWrites_ok (s : State) (b : Bool) : SameWrites State.forgetOk s { s with ok := b } := by
  constructor <;> intros <;> rfl

/-- Settles O26: `OK` is read by no operation. -/
theorem okIsReadByNoOperation : Obligations.OkIsReadByNoOperation := fun s b =>
  step_vary (s := s) (o := b) (sameWrites_ok s.taken b) fun _ _ => ⟨fun _ _ _ _ => rfl, fun _ => rfl, fun _ _ _ => rfl⟩

/-! ## `SEQ` on EAST -/

/-- Forget `SEQ`. -/
def State.forgetSeq (s : State) : State := { s with seq := 0 }

theorem sameWrites_seq (s : State) (q : Half) : SameWrites State.forgetSeq s { s with seq := q } := by
  constructor <;> intros <;> rfl

/-- Settles O27: `SEQ` is read on ICEMKII alone. -/
theorem eastInstanceNeverReadsSeq : Obligations.EastInstanceNeverReadsSeq := fun s q hv =>
  step_vary (s := s) (q := q) (sameWrites_seq s.taken q) fun _ _ =>
    ⟨fun _ _ _ _ => rfl, fun hi => absurd (hv.symm.trans hi) (by decide), fun _ _ _ => rfl⟩

/-! ## `RXL` away from the last byte of a frame -/

/-- Forget `RXL`. -/
def State.forgetRxl (s : State) : State := { s with rxl := 0 }

theorem sameWrites_rxl (s : State) (r : Byte) : SameWrites State.forgetRxl s { s with rxl := r } := by
  constructor <;> intros <;> rfl

/-- `RXL` is read by a `PUTBYTE` at the last byte of a frame alone. -/
theorem unread_rxl {i : Instr} {s : State} (h : s.mode = .output ∨ ¬s.atLastByte ∨ ∀ v, ¬isPutbyte v i) (r : Byte) :
    Unread i s s.seq r s.ok s.mem where
  rxl v hi hm hl := by
    obtain hm' | hl' | hi' := h
    · simp [hm'] at hm
    · exact absurd hl hl'
    · exact absurd hi (hi' v)
  seq _ := rfl
  byteAt _ _ _ := rfl

/-- Settles O29: `OpWrites.rxl` for the writes, `unread_rxl` for the reads. -/
theorem rxlIsTheLatchOfTheLowCheckByte : Obligations.RxlIsTheLatchOfTheLowCheckByte := by
  intro s _
  refine ⟨fun t h => ?writes, fun r h => ?reads⟩
  case writes =>
    obtain ⟨i, hi, hw⟩ | ⟨hr, -, rfl⟩ | ⟨-, a, b, rfl⟩ := step_writes h
    · simp only [hi, Option.some_inj]
      exact hw.rxl.imp_right .inr
    · exact .inr (.inl ⟨hr, rfl⟩)
    · exact .inl rfl
  case reads =>
    refine step_vary (s := s) (r := r) (sameWrites_rxl s.taken r) fun i hi => unread_rxl ?_ r
    refine h.imp_right fun h => h.imp_right fun h v hput => ?_
    obtain ⟨heast, hice⟩ := h v
    exact hput.elim (fun e => heast (e ▸ hi)) (fun e => hice (e ▸ hi))

/-! ## Memory outside the bound window -/

/-- Forget memory. -/
def State.forgetMem (s : State) : State := { s with mem := [] }

theorem sameWrites_mem (s : State) (m : Memory) : SameWrites State.forgetMem s { s with mem := m } := by
  constructor <;> intros <;> rfl

/-- Memory is read at the payload bytes of the bound window alone. -/
theorem unread_mem (i : Instr) {s : State} (hinv : s.Inv) {m : Memory}
    (h : ∀ a, s.bufptr.toNat ≤ a → a < s.bufptr.toNat + s.maxsize.toNat → m.read a = s.mem.read a) :
    Unread i s s.seq s.rxl s.ok m where
  rxl _ _ _ _ := rfl
  seq _ := rfl
  byteAt k hi hk := by
    have hsize := hinv.actsize_le hi
    have hread : (s.vary s.seq s.rxl s.ok m).mem.read (payloadAddr s k) = s.mem.read (payloadAddr s k) :=
      h _ (Nat.le_add_right _ _) (by rw [payloadAddr]; omega)
    rw [State.byteAt, State.byteAt, hread]

/-- Settles O38: `unread_mem`. -/
theorem bytesOutsideTheWindowAreNeverRead : Obligations.BytesOutsideTheWindowAreNeverRead :=
  fun s m i hinv h => exec_vary (sameWrites_mem s m) (unread_mem i hinv h)

end Sys2Proof.Machine
